-- ==== Sys2Proof/Word.lean ====
section
/-! DEFINITION. The unsigned word types of the hardware (00_scope.md R8: u4, u8, u12, u16) and the zero extension
to 16 bits (R8, `zext_16`). Every quantity is unsigned: there is no sign extension anywhere. -/

namespace Sys2Proof

/-- `u4`: a nibble of an instruction word, the height of a sprite. -/
abbrev Nibble := BitVec 4

/-- `u4` used as the index of a general register (R20: every index an instruction can name exists). -/
abbrev Reg := BitVec 4

/-- `u8`: a register's value, an immediate, a byte of memory. -/
abbrev Byte := BitVec 8

/-- `u12`: the address operand of an instruction word. -/
abbrev Addr12 := BitVec 12

/-- `u16`: an instruction word, the program counter, the index register, a return address. -/
abbrev Word := BitVec 16

/-- `zext_16(v)` of R8: widen with zeros. -/
def zext16 {n : Nat} (v : BitVec n) : Word := v.setWidth 16

end Sys2Proof
end

