-- ==== Sys2Proof/Config.lean ====
section
/-! DEFINITION. What is fixed for the machine (the parameters of 00_scope.md R6) and the free values: the random byte
and the render surface's answer, which the environment chooses (10_state.md R43, R44). A free value is an opaque
constant: nothing in Lean can evaluate it, so a theorem about it holds whatever it is.
The font and the initial byte of an address stand in Machine/Memory.lean; the masks of the opcode map in Decode.lean. -/

namespace Sys2Proof

/-- The answer of the render surface to one request (R44): the only thing that comes back from it. -/
inductive RenderResult where
  | ok
  | fail
deriving DecidableEq, Repr, Inhabited

namespace Config

/-- `MEM_SIZE` of R6: addresses 0x000 to 0xFFF. -/
abbrev memSize : Nat := 4096

/-- `PROG_BASE` of R6: where `load` puts the image and where the first fetch goes (R281, R286). -/
abbrev progBase : Nat := 0x200

/-- `PROG_MAX` of R6: the longest program image. -/
abbrev progMax : Nat := 3584

/-- `FONT_BASE` of R6. -/
abbrev fontBase : Nat := 0x050

/-- `FB_W` of R6: columns of the framebuffer. -/
abbrev screenWidth : Nat := 64

/-- `FB_H` of R6: rows of the framebuffer. -/
abbrev screenHeight : Nat := 32

/-- `INIT_REG` of R6. DESIGN CHOICE (decision D4 of the spec, log 2): the source gives the general registers no
reset value. Unsafe. -/
abbrev initReg : Byte := 0

/-- `INIT_TIMER` of R6. DESIGN CHOICE (decision D5 of the spec, log 3): the source gives the timers no reset value.
Unsafe in principle; no instruction reads a timer. -/
abbrev initTimer : Byte := 0

/-- The random byte of the `n`-th `Rand` execution when the driver has not fixed it in `State.inputs`
(R43, decision D17: "a free input"). No body: any of the 256 values, log 9. Safe. -/
opaque freeRand : Nat → Byte

/-- The surface's answer to the `n`-th render request when the driver has not fixed it in `State.inputs`
(R44, decision D16: "a free input"). No body: `ok` or `fail`, log 10. Safe. -/
opaque freeAnswer : Nat → RenderResult

end Config

end Sys2Proof
end

