-- ==== Sys2Proof/Syntax.lean ====
section
/-! DEFINITION. The instruction values of 30_encoding.md R96: one constructor per row of the opcode table, in the
table's order, with the operands R96 gives each. The tag `Return` is spelled `ret` (a Lean keyword otherwise). -/

namespace Sys2Proof

/-- The tagged instruction value of R96. Ignored bits (R110) do not reach it. -/
inductive Instr where
  -- format FIXED
  | clear
  | ret
  -- formats ADDR, REGIMM, REGREG, as the table lists them
  | absJump (nnn : Addr12)
  | call (nnn : Addr12)
  | skipEqVal (x : Reg) (kk : Byte)
  | skipNeqVal (x : Reg) (kk : Byte)
  | skipEqReg (x y : Reg)
  | setVal (x : Reg) (kk : Byte)
  | addVal (x : Reg) (kk : Byte)
  -- format ALU
  | mov (x y : Reg)
  | or (x y : Reg)
  | and (x y : Reg)
  | xor (x y : Reg)
  | add (x y : Reg)
  | sub (x y : Reg)
  | shr (x y : Reg)
  | subN (x y : Reg)
  | shl (x y : Reg)
  -- formats REGREG, ADDR, REGIMM
  | skipNeqReg (x y : Reg)
  | setIndex (nnn : Addr12)
  | offsetJump (nnn : Addr12)
  | rand (x : Reg) (kk : Byte)
  -- format DRAW
  | draw (x y : Reg) (n : Nibble)
  -- format REGSEL: decoded, never executed (R220)
  | skipKeyPressed (x : Reg)
  | skipKeyNotPressed (x : Reg)
  | getDelay (x : Reg)
  | waitKey (x : Reg)
  | setDelay (x : Reg)
  | setSound (x : Reg)
  | addIndex (x : Reg)
  | setIndexFont (x : Reg)
  | storeBcd (x : Reg)
  | dumpRegs (x : Reg)
  | loadRegs (x : Reg)
  -- format RAW: the catch-all, carrying the raw word
  | unknown (w : Word)
deriving DecidableEq, Repr

end Sys2Proof
end

