-- ==== Sys2Proof/WellFormed.lean ====
section
/-! DEFINITION. Which instruction values the decoder can produce. The operand types already bound every field (R93), so
the one thing left to check is that `Unknown` carries a word of the Unknown space (30_encoding.md R109): a raw word
that is the encoding of a named tag is no `Unknown`. The space is written here from R109's four regions, not from the
decoder. -/

namespace Sys2Proof

/-- Region (a) of R109: `top = 0x0` and the low byte neither 0xE0 nor 0xEE. -/
def unknownFixed (top : Nibble) (kk : Byte) : Bool :=
  top == 0x0#4 && !([0xE0#8, 0xEE#8].contains kk)

/-- Region (b) of R109: `top = 0x8` and one of the seven ALU selectors no instruction has. -/
def unknownAlu (top n : Nibble) : Bool :=
  top == 0x8#4 && [0x8#4, 0x9#4, 0xA#4, 0xB#4, 0xC#4, 0xD#4, 0xF#4].contains n

/-- Region (c) of R109: `top = 0xE` and the low byte neither 0x9E nor 0xA1. -/
def unknownKey (top : Nibble) (kk : Byte) : Bool :=
  top == 0xE#4 && !([0x9E#8, 0xA1#8].contains kk)

/-- Region (d) of R109: `top = 0xF` and the low byte none of the nine selectors. -/
def unknownMisc (top : Nibble) (kk : Byte) : Bool :=
  top == 0xF#4 &&
    !([0x07#8, 0x0A#8, 0x15#8, 0x18#8, 0x1E#8, 0x29#8, 0x33#8, 0x55#8, 0x65#8].contains kk)

/-- The Unknown space of R109. -/
def inUnknownSpace (w : Word) : Bool :=
  let top : Nibble := w.extractLsb' 12 4
  let kk : Byte := w.extractLsb' 0 8
  let n : Nibble := w.extractLsb' 0 4
  unknownFixed top kk || unknownAlu top n || unknownKey top kk || unknownMisc top kk

/-- Well-formed: an `Unknown` carries a word of the Unknown space; every other instruction value is well formed by
its operand types. -/
def Instr.wf : Instr → Bool
  | .clear => true
  | .ret => true
  | .absJump _ => true
  | .call _ => true
  | .skipEqVal _ _ => true
  | .skipNeqVal _ _ => true
  | .skipEqReg _ _ => true
  | .setVal _ _ => true
  | .addVal _ _ => true
  | .mov _ _ => true
  | .or _ _ => true
  | .and _ _ => true
  | .xor _ _ => true
  | .add _ _ => true
  | .sub _ _ => true
  | .shr _ _ => true
  | .subN _ _ => true
  | .shl _ _ => true
  | .skipNeqReg _ _ => true
  | .setIndex _ => true
  | .offsetJump _ => true
  | .rand _ _ => true
  | .draw _ _ _ => true
  | .skipKeyPressed _ => true
  | .skipKeyNotPressed _ => true
  | .getDelay _ => true
  | .waitKey _ => true
  | .setDelay _ => true
  | .setSound _ => true
  | .addIndex _ => true
  | .setIndexFont _ => true
  | .storeBcd _ => true
  | .dumpRegs _ => true
  | .loadRegs _ => true
  | .unknown w => inUnknownSpace w

end Sys2Proof
end

