-- ==== Sys2Proof/Decode.lean ====
section
/-! DEFINITION. The opcode decoder (30_encoding.md R92, R94, R95), the opcode map as data (R100), and the encoder that
writes a well-formed instruction's word from the same map (ignored bits as 0, R120). -/

namespace Sys2Proof

/-! ## Fields (R92) -/

/-- `top = w[15:12]`, the family selector. -/
def fieldTop (w : Word) : Nibble := w.extractLsb' 12 4

/-- `X = w[11:8]`. -/
def fieldX (w : Word) : Nibble := w.extractLsb' 8 4

/-- `Y = w[7:4]`. -/
def fieldY (w : Word) : Nibble := w.extractLsb' 4 4

/-- `N = w[3:0]`. -/
def fieldN (w : Word) : Nibble := w.extractLsb' 0 4

/-- `KK = w[7:0]`. -/
def fieldKK (w : Word) : Byte := w.extractLsb' 0 8

/-- `NNN = w[11:0]`. -/
def fieldNNN (w : Word) : Addr12 := w.extractLsb' 0 12

/-! ## The decoder (R95) -/

/-- The arm `top = 0x0` of R95: the low byte selects; `w[11:8]` is not compared (R101).
DESIGN CHOICE (decision D1 of the spec, log 6). Unsafe for the 30 words 0x0XE0, 0x0XEE with X not 0. -/
def decodeFixed (w : Word) : Instr :=
  if fieldKK w = 0xE0#8 then .clear
  else if fieldKK w = 0xEE#8 then .ret
  else .unknown w

/-- The arm `top = 0x8` of R95: the low nibble selects (R105). -/
def decodeAlu (w : Word) : Instr :=
  match fieldN w with
  | 0x0#4 => .mov (fieldX w) (fieldY w)
  | 0x1#4 => .or (fieldX w) (fieldY w)
  | 0x2#4 => .and (fieldX w) (fieldY w)
  | 0x3#4 => .xor (fieldX w) (fieldY w)
  | 0x4#4 => .add (fieldX w) (fieldY w)
  | 0x5#4 => .sub (fieldX w) (fieldY w)
  | 0x6#4 => .shr (fieldX w) (fieldY w)
  | 0x7#4 => .subN (fieldX w) (fieldY w)
  | 0xE#4 => .shl (fieldX w) (fieldY w)
  | _ => .unknown w

/-- The arm `top = 0xE` of R95. The split of the selector bytes between 0xE and 0xF is PRESUMED (decision D2 of the
spec, log 7): it changes only the tag a fault record names. -/
def decodeKey (w : Word) : Instr :=
  if fieldKK w = 0x9E#8 then .skipKeyPressed (fieldX w)
  else if fieldKK w = 0xA1#8 then .skipKeyNotPressed (fieldX w)
  else .unknown w

/-- The arm `top = 0xF` of R95 (PRESUMED split as for `decodeKey`, log 7; 0xF007 is anchored by the source). -/
def decodeMisc (w : Word) : Instr :=
  match fieldKK w with
  | 0x07#8 => .getDelay (fieldX w)
  | 0x0A#8 => .waitKey (fieldX w)
  | 0x15#8 => .setDelay (fieldX w)
  | 0x18#8 => .setSound (fieldX w)
  | 0x1E#8 => .addIndex (fieldX w)
  | 0x29#8 => .setIndexFont (fieldX w)
  | 0x33#8 => .storeBcd (fieldX w)
  | 0x55#8 => .dumpRegs (fieldX w)
  | 0x65#8 => .loadRegs (fieldX w)
  | _ => .unknown w

/-- `decode(w)` of R95: total, reads no state (R94). The sixteen values of `top` are all listed; the last line stands
only because Lean asks for it. -/
def decodeWord (w : Word) : Instr :=
  match fieldTop w with
  | 0x0#4 => decodeFixed w
  | 0x1#4 => .absJump (fieldNNN w)
  | 0x2#4 => .call (fieldNNN w)
  | 0x3#4 => .skipEqVal (fieldX w) (fieldKK w)
  | 0x4#4 => .skipNeqVal (fieldX w) (fieldKK w)
  | 0x5#4 => .skipEqReg (fieldX w) (fieldY w)
  | 0x6#4 => .setVal (fieldX w) (fieldKK w)
  | 0x7#4 => .addVal (fieldX w) (fieldKK w)
  | 0x8#4 => decodeAlu w
  | 0x9#4 => .skipNeqReg (fieldX w) (fieldY w)
  | 0xA#4 => .setIndex (fieldNNN w)
  | 0xB#4 => .offsetJump (fieldNNN w)
  | 0xC#4 => .rand (fieldX w) (fieldKK w)
  | 0xD#4 => .draw (fieldX w) (fieldY w) (fieldN w)
  | 0xE#4 => decodeKey w
  | 0xF#4 => decodeMisc w
  | _ => .unknown w

/-- Why a byte sequence holds no instruction. -/
inductive DecodeError where
  /-- Fewer than the two bytes every instruction has (R90). -/
  | truncated
deriving DecidableEq, Repr

/-- Two bytes as the word they store, most significant byte first (R63, R69). -/
def wordOfBytes (hi lo : Byte) : Word := hi ++ lo

/-- The first instruction of a byte sequence and the bytes after it. Total: every pair of bytes is an instruction
(R115), and a sequence shorter than two bytes is rejected by name. -/
def decodeBytes : List Byte → Except DecodeError (Instr × List Byte)
  | hi :: lo :: rest => .ok (decodeWord (wordOfBytes hi lo), rest)
  | [_] => .error .truncated
  | [] => .error .truncated

/-- The two bytes of a word as memory holds them: the high byte at the lower address (R69). -/
def bytesOfWord (w : Word) : List Byte := [w.extractLsb' 8 8, w.extractLsb' 0 8]

/-- What the decoder reads from the instruction whose `nbits` low bits are `w`, the bits above being 0: laid out as
memory holds it (one 16-bit word, high byte first) and given to `decodeBytes`. No instruction is longer than 16 bits. -/
def decodeTableWord (nbits w : Nat) : Option Instr :=
  if nbits ≤ 16 then
    match decodeBytes (bytesOfWord (BitVec.ofNat 16 (w % 2 ^ nbits))) with
    | .ok (i, _) => some i
    | .error _ => none
  else none

/-! ## The opcode map as data (R100) -/

/-- The 35 tags of R100 (names: decision D3 of the spec, log 8): an instruction value without its operands. -/
inductive Tag where
  | clear | ret | absJump | call | skipEqVal | skipNeqVal | skipEqReg | setVal | addVal
  | mov | or | and | xor | add | sub | shr | subN | shl
  | skipNeqReg | setIndex | offsetJump | rand | draw
  | skipKeyPressed | skipKeyNotPressed | getDelay | waitKey | setDelay | setSound
  | addIndex | setIndexFont | storeBcd | dumpRegs | loadRegs | unknown
deriving DecidableEq, Repr

/-- The tag of an instruction value. -/
def Instr.tag : Instr → Tag
  | .clear => .clear
  | .ret => .ret
  | .absJump _ => .absJump
  | .call _ => .call
  | .skipEqVal _ _ => .skipEqVal
  | .skipNeqVal _ _ => .skipNeqVal
  | .skipEqReg _ _ => .skipEqReg
  | .setVal _ _ => .setVal
  | .addVal _ _ => .addVal
  | .mov _ _ => .mov
  | .or _ _ => .or
  | .and _ _ => .and
  | .xor _ _ => .xor
  | .add _ _ => .add
  | .sub _ _ => .sub
  | .shr _ _ => .shr
  | .subN _ _ => .subN
  | .shl _ _ => .shl
  | .skipNeqReg _ _ => .skipNeqReg
  | .setIndex _ => .setIndex
  | .offsetJump _ => .offsetJump
  | .rand _ _ => .rand
  | .draw _ _ _ => .draw
  | .skipKeyPressed _ => .skipKeyPressed
  | .skipKeyNotPressed _ => .skipKeyNotPressed
  | .getDelay _ => .getDelay
  | .waitKey _ => .waitKey
  | .setDelay _ => .setDelay
  | .setSound _ => .setSound
  | .addIndex _ => .addIndex
  | .setIndexFont _ => .setIndexFont
  | .storeBcd _ => .storeBcd
  | .dumpRegs _ => .dumpRegs
  | .loadRegs _ => .loadRegs
  | .unknown _ => .unknown

/-- One row of R100: a word `w` selects the row when `w &&& mask = pattern`. -/
structure OpcodeRow where
  tag : Tag
  mask : Word
  pattern : Word
deriving DecidableEq, Repr

/-- `w & mask == match` of R100. -/
def OpcodeRow.selects (row : OpcodeRow) (w : Word) : Bool := w &&& row.mask == row.pattern

/-- The rows of R100 whose family nibble alone selects, and the two of `top = 0x0`. -/
def opcodeRowsPlain : List OpcodeRow :=
  [⟨.clear, 0xF0FF, 0x00E0⟩, ⟨.ret, 0xF0FF, 0x00EE⟩,
   ⟨.absJump, 0xF000, 0x1000⟩, ⟨.call, 0xF000, 0x2000⟩,
   ⟨.skipEqVal, 0xF000, 0x3000⟩, ⟨.skipNeqVal, 0xF000, 0x4000⟩, ⟨.skipEqReg, 0xF000, 0x5000⟩,
   ⟨.setVal, 0xF000, 0x6000⟩, ⟨.addVal, 0xF000, 0x7000⟩, ⟨.skipNeqReg, 0xF000, 0x9000⟩,
   ⟨.setIndex, 0xF000, 0xA000⟩, ⟨.offsetJump, 0xF000, 0xB000⟩, ⟨.rand, 0xF000, 0xC000⟩,
   ⟨.draw, 0xF000, 0xD000⟩]

/-- The ALU rows of R100. -/
def opcodeRowsAlu : List OpcodeRow :=
  [⟨.mov, 0xF00F, 0x8000⟩, ⟨.or, 0xF00F, 0x8001⟩, ⟨.and, 0xF00F, 0x8002⟩,
   ⟨.xor, 0xF00F, 0x8003⟩, ⟨.add, 0xF00F, 0x8004⟩, ⟨.sub, 0xF00F, 0x8005⟩,
   ⟨.shr, 0xF00F, 0x8006⟩, ⟨.subN, 0xF00F, 0x8007⟩, ⟨.shl, 0xF00F, 0x800E⟩]

/-- The REGSEL rows of R100. -/
def opcodeRowsRegSel : List OpcodeRow :=
  [⟨.skipKeyPressed, 0xF0FF, 0xE09E⟩, ⟨.skipKeyNotPressed, 0xF0FF, 0xE0A1⟩,
   ⟨.getDelay, 0xF0FF, 0xF007⟩, ⟨.waitKey, 0xF0FF, 0xF00A⟩, ⟨.setDelay, 0xF0FF, 0xF015⟩,
   ⟨.setSound, 0xF0FF, 0xF018⟩, ⟨.addIndex, 0xF0FF, 0xF01E⟩, ⟨.setIndexFont, 0xF0FF, 0xF029⟩,
   ⟨.storeBcd, 0xF0FF, 0xF033⟩, ⟨.dumpRegs, 0xF0FF, 0xF055⟩, ⟨.loadRegs, 0xF0FF, 0xF065⟩]

/-- The 34 rows of R100; `Unknown` is every word that none of them selects. -/
def opcodeRows : List OpcodeRow := opcodeRowsPlain ++ opcodeRowsAlu ++ opcodeRowsRegSel

/-- The bits of a word the decoder compares or takes as an operand (R110): all of them but `w[11:8]` of `Clear` and
`Return` and `w[3:0]` of `SkipEqReg` and `SkipNeqReg`. -/
def significantBits (t : Tag) : Word :=
  match t with
  | .clear | .ret => 0xF0FF
  | .skipEqReg | .skipNeqReg => 0xFFF0
  | _ => 0xFFFF

/-! ## The encoder -/

/-- The word of a format ADDR instruction (R91). -/
def encodeAddr (top : Nibble) (nnn : Addr12) : Word := top ++ nnn

/-- The word of a format REGIMM or REGSEL instruction (R91): `X` then the low byte. -/
def encodeRegByte (top : Nibble) (x : Reg) (kk : Byte) : Word := top ++ (x ++ kk)

/-- The word of a format REGREG, ALU or DRAW instruction (R91): `X`, `Y`, low nibble. -/
def encodeRegReg (top : Nibble) (x y : Reg) (n : Nibble) : Word := top ++ (x ++ (y ++ n))

/-- The word of an instruction value: the pattern of its row of R100 with the operands in their fields and every
ignored bit 0 (R120). For `Unknown` the raw word. -/
def encode : Instr → Word
  | .clear => 0x00E0
  | .ret => 0x00EE
  | .absJump nnn => encodeAddr 0x1 nnn
  | .call nnn => encodeAddr 0x2 nnn
  | .skipEqVal x kk => encodeRegByte 0x3 x kk
  | .skipNeqVal x kk => encodeRegByte 0x4 x kk
  | .skipEqReg x y => encodeRegReg 0x5 x y 0x0
  | .setVal x kk => encodeRegByte 0x6 x kk
  | .addVal x kk => encodeRegByte 0x7 x kk
  | .mov x y => encodeRegReg 0x8 x y 0x0
  | .or x y => encodeRegReg 0x8 x y 0x1
  | .and x y => encodeRegReg 0x8 x y 0x2
  | .xor x y => encodeRegReg 0x8 x y 0x3
  | .add x y => encodeRegReg 0x8 x y 0x4
  | .sub x y => encodeRegReg 0x8 x y 0x5
  | .shr x y => encodeRegReg 0x8 x y 0x6
  | .subN x y => encodeRegReg 0x8 x y 0x7
  | .shl x y => encodeRegReg 0x8 x y 0xE
  | .skipNeqReg x y => encodeRegReg 0x9 x y 0x0
  | .setIndex nnn => encodeAddr 0xA nnn
  | .offsetJump nnn => encodeAddr 0xB nnn
  | .rand x kk => encodeRegByte 0xC x kk
  | .draw x y n => encodeRegReg 0xD x y n
  | .skipKeyPressed x => encodeRegByte 0xE x 0x9E
  | .skipKeyNotPressed x => encodeRegByte 0xE x 0xA1
  | .getDelay x => encodeRegByte 0xF x 0x07
  | .waitKey x => encodeRegByte 0xF x 0x0A
  | .setDelay x => encodeRegByte 0xF x 0x15
  | .setSound x => encodeRegByte 0xF x 0x18
  | .addIndex x => encodeRegByte 0xF x 0x1E
  | .setIndexFont x => encodeRegByte 0xF x 0x29
  | .storeBcd x => encodeRegByte 0xF x 0x33
  | .dumpRegs x => encodeRegByte 0xF x 0x55
  | .loadRegs x => encodeRegByte 0xF x 0x65
  | .unknown w => w

end Sys2Proof
end

