-- ==== Sys2Proof/Machine/State.lean ====
section
/-! DEFINITION. The state of the core (10_state.md R46), the fault record of its halt latch (60_exceptions.md R240), the
render requests (R44), the state after reset (70_reset_and_hazards.md R280), and the reasons a transaction can stop. -/

namespace Sys2Proof.Machine

/-- The framebuffer of R36: 32 rows of 64 boolean pixels, row-major; pixel (row r, column c) is entry c of row r, and
its index in the flat array is r * 64 + c. `true` is a lit pixel. -/
abbrev Framebuffer := Vector (Vector Bool Config.screenWidth) Config.screenHeight

/-- All 2048 pixels false (R36: "all false at start and after a clear"). -/
def Framebuffer.blank : Framebuffer :=
  Vector.replicate Config.screenHeight (Vector.replicate Config.screenWidth false)

/-- The memory of R60, sparse: addresses strictly rising, no entry equal to what an unlisted address reads as
(`Memory.wf` in Machine/Memory.lean). An unlisted address reads its reset contents. -/
abbrev Memory := List Host.Cell

/-- The two messages the core sends to the render surface (R44): erase, or paint a copy of the whole grid. -/
inductive RenderRequest where
  | clearOutput
  | paint (grid : Framebuffer)
deriving DecidableEq, Repr

/-- The kinds of out-of-bounds access and the range each records (R240, R243 to R245). -/
inductive BadAccess where
  /-- A fetch at `pc` of 4095 or more. -/
  | fetch (pc : Word)
  /-- A `Draw` of `n` rows from address `index`, past 0xFFF. -/
  | sprite (index : Word) (n : Nibble)
  /-- A program image of `length` bytes, more than 3584. -/
  | load (length : Nat)
deriving DecidableEq, Repr

/-- A fault record (R240): the cause and the information recorded for it. -/
inductive FaultRecord where
  /-- `Return` with an empty call stack (R241). -/
  | stackUnderflow
  /-- A decoded tag without execution semantics: the instruction value and the raw word (R242, decision D22). -/
  | unimplementedOpcode (iv : Instr) (w : Word)
  /-- An address past 0xFFF would be accessed (R243 to R245). -/
  | outOfBounds (access : BadAccess)
  /-- The render surface answered `fail` to this request (R246). -/
  | renderFailure (req : RenderRequest)
deriving DecidableEq, Repr

/-- The free inputs of the ticks to come (R42 to R44). The MODEL's own data, log 9 and 10: `step` has no argument but
the state. The lists are what the environment has already fixed; past their end the value is the opaque
`Config.freeRand randCount` or `Config.freeAnswer answerCount`. -/
structure Inputs where
  /-- Random bytes fixed for the next `Rand` executions, next first. -/
  rands : List Byte
  /-- `Rand` executions so far. -/
  randCount : Nat
  /-- Answers fixed for the next render requests, next first. -/
  answers : List RenderResult
  /-- Render requests answered so far. -/
  answerCount : Nat
deriving DecidableEq, Repr

/-- The whole state of the core (R46), and the environment's inputs. -/
structure State where
  /-- `x[0]` to `x[15]` (R20). -/
  regs : Vector Byte 16
  /-- The program counter (R26). -/
  pc : Word
  /-- The index register `I` (R31). -/
  index : Word
  /-- The call stack, top first, unbounded (R32). -/
  stack : List Word
  /-- The delay timer `DT` (R34): nothing reads or writes it. -/
  dt : Byte
  /-- The sound timer `ST` (R34): nothing reads or writes it. -/
  st : Byte
  /-- The framebuffer (R36). -/
  fb : Framebuffer
  /-- The memory (R60). -/
  mem : Memory
  /-- The halt latch (R40): none, or the record of the fault that stopped the run. -/
  halt : Option FaultRecord
  /-- The output history (R45): render requests sent since reset, oldest first. -/
  history : List RenderRequest
  /-- The model's own: the environment's inputs (log 9, 10). -/
  inputs : Inputs
deriving DecidableEq, Repr

/-- The state after `reset()` (R280, R46). The general registers and the timers are DESIGN CHOICE 0 (log 2, 3), the
memory lists nothing and so reads the font and 0 elsewhere (log 4, 5), the inputs are DESIGN CHOICE empty (log 9, 10). -/
def State.reset : State where
  regs := Vector.replicate 16 Config.initReg
  pc := 0x200
  index := 0
  stack := []
  dt := Config.initTimer
  st := Config.initTimer
  fb := Framebuffer.blank
  mem := []
  halt := none
  history := []
  inputs := { rands := [], randCount := 0, answers := [], answerCount := 0 }

/-- Why a step could end in `Host.Outcome.fault`: for no reason. The spec describes the state every fault leaves
(R241 to R248), so a fault of the hardware is a NEXT state with its record in `State.halt` (log 1); nothing raises a
fault outside the state. -/
inductive Fault where
deriving DecidableEq, Repr

/-- Why a transaction can be refused. -/
inductive Refusal where
  /-- Raised only by an arm of `exec` whose instruction has no meaning yet: no arm does. Safe. -/
  | notModelled (mnemonic : String)
  /-- Raised by the driver's `load` transaction (Machine/Driver.lean) anywhere but once between a reset and the first
  tick: "a model should refuse it rather than rely on it" (R288). No instruction raises it. Safe. -/
  | loadOutOfPhase
deriving DecidableEq, Repr

/-- What a meaning and a step answer. -/
abbrev Result := Host.Outcome State Fault Refusal

end Sys2Proof.Machine
end

