-- ==== Sys2Proof/Machine/Memory.lean ====
section
/-! DEFINITION. The memory's reset contents (20_memory.md R65 to R67), its reads and writes (R61, R62), its canonical
form, and the byte order of a two-byte read (R63, R69). -/

namespace Sys2Proof.Machine

/-! ## Reset contents -/

/-- Glyphs 0 to 7 of the font table of R67. -/
def fontLow : List Byte :=
  [0xF0, 0x90, 0x90, 0x90, 0xF0,  0x20, 0x60, 0x20, 0x20, 0x70,
   0xF0, 0x10, 0xF0, 0x80, 0xF0,  0xF0, 0x10, 0xF0, 0x10, 0xF0,
   0x90, 0x90, 0xF0, 0x10, 0x10,  0xF0, 0x80, 0xF0, 0x10, 0xF0,
   0xF0, 0x80, 0xF0, 0x90, 0xF0,  0xF0, 0x10, 0x20, 0x40, 0x40]

/-- Glyphs 8 to F of the font table of R67. -/
def fontHigh : List Byte :=
  [0xF0, 0x90, 0xF0, 0x90, 0xF0,  0xF0, 0x90, 0xF0, 0x10, 0xF0,
   0xF0, 0x90, 0xF0, 0x90, 0x90,  0xE0, 0x90, 0xE0, 0x90, 0xE0,
   0xF0, 0x80, 0x80, 0x80, 0xF0,  0xE0, 0x90, 0x90, 0x90, 0xE0,
   0xF0, 0x80, 0xF0, 0x80, 0xF0,  0xF0, 0x80, 0xF0, 0x80, 0x80]

/-- `FONT` of R6: the 80 bytes. PRESUMED (decision D7 of the spec, log 5): the conventional table that R67 lists as the
default, not a fact of the source. Unsafe for claims about a glyph's pixels or font bytes run as code. -/
def font : List Byte := fontLow ++ fontHigh

/-- The byte an address holds after reset (R280): the font at 0x050 to 0x09F (R66), elsewhere 0.
DESIGN CHOICE (`INIT_MEM`, decision D6 of the spec, log 4). Unsafe. -/
def initByte (a : Nat) : Byte :=
  if a < Config.fontBase then 0 else font.getD (a - Config.fontBase) 0

/-! ## The canonical form -/

/-- The entries from address `lo` up are strictly rising, inside memory, and none equals the byte its address reads
when unlisted. -/
def Memory.wfFrom (lo : Nat) : Memory → Bool
  | [] => true
  | (k, v) :: rest =>
    decide (lo ≤ k) && decide (k < Config.memSize) && decide (v ≠ initByte k) && Memory.wfFrom (k + 1) rest

/-- The canonical form: equal memories are equal lists. -/
def Memory.wf (m : Memory) : Bool := Memory.wfFrom 0 m

/-! ## Reads and writes -/

/-- `mem[a]`: the listed byte, or the reset contents. -/
def Memory.peek (m : Memory) (a : Nat) : Byte :=
  match m with
  | [] => initByte a
  | (k, v) :: rest => if a = k then v else Memory.peek rest a

/-- `mem[a] <- v`, keeping the canonical form: writing the byte an unlisted address reads removes the entry. -/
def Memory.insert (m : Memory) (a : Nat) (v : Byte) : Memory :=
  match m with
  | [] => if v = initByte a then [] else [(a, v)]
  | (k, w) :: rest =>
    if a < k then (if v = initByte a then (k, w) :: rest else (a, v) :: (k, w) :: rest)
    else if a = k then (if v = initByte a then rest else (a, v) :: rest)
    else (k, w) :: Memory.insert rest a v

/-- `MemRead(a, 1)` of R61: none where the access is out of bounds. -/
def Memory.readByte (m : Memory) (a : Nat) : Option Byte :=
  if a + 1 > Config.memSize then none else some (m.peek a)

/-- `MemRead(a, 2)` of R61: most significant byte first (R63, R69); none where the access is out of bounds. -/
def Memory.readWord (m : Memory) (a : Nat) : Option Word :=
  if a + 2 > Config.memSize then none else some (wordOfBytes (m.peek a) (m.peek (a + 1)))

/-- `MemWrite(a, 1, v)` of R62: none where the access is out of bounds. -/
def Memory.writeByte (m : Memory) (a : Nat) (v : Byte) : Option Memory :=
  if a ≥ Config.memSize then none else some (m.insert a v)

/-- `MemWrite(a + k, 1, bytes[k])` for k from 0 up, in order (the loop of R286): none as soon as one is out of
bounds. -/
def Memory.writeBytes (m : Memory) (a : Nat) : List Byte → Option Memory
  | [] => some m
  | b :: rest =>
    match m.writeByte a b with
    | none => none
    | some m' => Memory.writeBytes m' (a + 1) rest

end Sys2Proof.Machine
end

