-- ==== Sys2Proof/Machine/Screen.lean ====
section
/-! DEFINITION. The framebuffer's pixels (10_state.md R36) and the sprite blitter (46_draw.md R200, R201, R203, R205,
R206): the loops of R201's pseudocode over the grid and the collision bit. It knows nothing of the CPU (R37). -/

namespace Sys2Proof.Machine

/-- `fb[r][c]`; a place outside the grid reads false and is never asked for by an instruction. -/
def Framebuffer.pixel (fb : Framebuffer) (r c : Nat) : Bool :=
  if h : r < Config.screenHeight ∧ c < Config.screenWidth then (fb[r]'h.1)[c]'h.2 else false

/-- `fb[r][c] <- b`; a place outside the grid is dropped. -/
def Framebuffer.setPixel (fb : Framebuffer) (r c : Nat) (b : Bool) : Framebuffer :=
  if h : r < Config.screenHeight ∧ c < Config.screenWidth then fb.set r ((fb[r]'h.1).set c b h.2) h.1
  else fb

/-- What the blitter carries: the grid, and whether a lit pixel has been turned off so far. -/
structure Blit where
  grid : Framebuffer
  collision : Bool
deriving DecidableEq, Repr

/-- One bit of a row (the body of R201's inner loop): bit-offset `b` of `row` falls on column `sx + b` of grid row
`py`, and is bit `7 - b` of the byte (R205); past column 63 it is dropped (R203); a 1 bit flips the pixel and collides
with a lit one (R206). -/
def blitBit (sx py : Nat) (row : Byte) (acc : Blit) (b : Nat) : Blit :=
  let px := sx + b
  if px ≤ 63 then
    if row.getLsbD (7 - b) then
      if acc.grid.pixel py px then ⟨acc.grid.setPixel py px false, true⟩
      else ⟨acc.grid.setPixel py px true, acc.collision⟩
    else acc
  else acc

/-- One sprite row (the body of R201's outer loop): past row 31 the whole row is dropped (R203), else its 8 bits in
order, most significant first. -/
def blitRow (sx py : Nat) (row : Byte) (acc : Blit) : Blit :=
  if py ≤ 31 then (List.range 8).foldl (blitBit sx py row) acc else acc

/-- R201's outer loop: the rows in order, the first at grid row `py`. -/
def blitRows (sx py : Nat) (rows : List Byte) (acc : Blit) : Blit :=
  match rows with
  | [] => acc
  | row :: rest => blitRows sx (py + 1) rest (blitRow sx py row acc)

/-- A sprite composited into a grid with its top-left corner at column `sx`, row `sy`: the new grid and the collision
bit (R200). -/
def blit (fb : Framebuffer) (sx sy : Nat) (rows : List Byte) : Blit :=
  blitRows sx sy rows ⟨fb, false⟩

end Sys2Proof.Machine
end

