-- ==== Sys2Proof/Machine/Ops.lean ====
section
/-! DEFINITION. The named operations every meaning is written with: registers, program counter, index, call stack,
fetch, the environment's inputs, taking a fault, sending a render request. -/

namespace Sys2Proof.Machine

/-! ## General registers (R20, R9) -/

/-- The flag register `x[15]` (R16, R23). -/
abbrev flagReg : Reg := 15

/-- `x[r]`: every index an instruction can name exists (R20). -/
def State.reg (s : State) (r : Reg) : Byte := s.regs[r.toNat]'(r.isLt)

/-- `x[r] <- v`: no register is hardwired (R20). -/
def State.setReg (s : State) (r : Reg) (v : Byte) : State :=
  { s with regs := s.regs.set r.toNat v r.isLt }

/-! ## Program counter, index register, framebuffer, call stack -/

/-- `pc <- target`. -/
def State.setPc (s : State) (target : Word) : State := { s with pc := target }

/-- `pc <- pc + 2`: the increment of a tick (R130, R133), and what a taken skip adds (R160). The 16-bit sum never
overflows within a tick (R29, log 18). -/
def State.advancePc (s : State) : State := s.setPc (s.pc + 2)

/-- `I <- v`. -/
def State.setIndex (s : State) (v : Word) : State := { s with index := v }

/-- The framebuffer replaced as a whole (what `Clear` and the blitter give back, R37). -/
def State.setFb (s : State) (grid : Framebuffer) : State := { s with fb := grid }

/-- `push(v)` of R32: the stack is growable, so it cannot fault (decision D8 of the spec, log 12). -/
def State.push (s : State) (v : Word) : State := { s with stack := v :: s.stack }

/-- `pop()` of R32: the top and the state without it; none where the stack is empty (R33). -/
def State.pop (s : State) : Option (Word × State) :=
  match s.stack with
  | [] => none
  | v :: rest => some (v, { s with stack := rest })

/-! ## Fetch (R63) -/

/-- `MemRead(pc, 2)`: the word at the program counter, none past the end of memory. No alignment is asked for (R70,
decision D14 of the spec, log 16). -/
def State.fetch (s : State) : Option Word := s.mem.readWord s.pc.toNat

/-! ## Taking a fault (R11, R248) -/

/-- `raise` of R11 and the fault entry of R248: the latch is set to the record and nothing else changes; no register
is saved, no mode changes, control goes nowhere. There is no return from a fault (R249): the only way out of a set
latch is `State.reset`. -/
def State.raise (s : State) (r : FaultRecord) : State := { s with halt := some r }

/-- `raise` under a condition: the latch is set as `State.raise` sets it if `cond` holds, and stays as it is if not. The
condition stands inside the latch, so the rest of the next state is evaluated whatever it is. -/
def State.raiseIf (s : State) (cond : Bool) (r : FaultRecord) : State :=
  { s with halt := if cond then (s.raise r).halt else s.halt }

/-- The numeric code of a fault (R240, decision D13 of the spec, log 21): a label no program can read. -/
def FaultRecord.code : FaultRecord → Nat
  | .stackUnderflow => 1
  | .unimplementedOpcode _ _ => 2
  | .outOfBounds _ => 3
  | .renderFailure _ => 4

/-! ## The environment's inputs (R43, R44) -/

/-- The byte the next `Rand` draws: what the driver has fixed, else any byte (log 9). -/
def Inputs.nextRand (n : Inputs) : Byte := n.rands.headD (Config.freeRand n.randCount)

/-- The inputs once a byte has been drawn. -/
def Inputs.afterRand (n : Inputs) : Inputs :=
  { n with rands := n.rands.tail, randCount := n.randCount + 1 }

/-- The answer the next render request gets: what the environment has fixed, else either (log 10). -/
def Inputs.nextAnswer (n : Inputs) : RenderResult := n.answers.headD (Config.freeAnswer n.answerCount)

/-- The inputs once a request has been answered. -/
def Inputs.afterAnswer (n : Inputs) : Inputs :=
  { n with answers := n.answers.tail, answerCount := n.answerCount + 1 }

/-- The state once `RandByte()` (R12) has drawn `s.inputs.nextRand`. -/
def State.afterRand (s : State) : State := { s with inputs := s.inputs.afterRand }

/-- The state once the request has been sent and appended to the output history (R12, R45, log 11), before its answer is
looked at. -/
def State.send (s : State) (req : RenderRequest) : State :=
  { s with history := s.history ++ [req], inputs := s.inputs.afterAnswer }

/-- `Render(req)` of R12: the request is sent, and a surface that answers `fail` raises `RenderFailure` (R246). -/
def State.render (s : State) (req : RenderRequest) : State :=
  (s.send req).raiseIf (s.inputs.nextAnswer == .fail) (.renderFailure req)

/-! ## Placing a program word where the next fetch reads it -/

/-- `s` with the two bytes of `w` at the program counter, high byte first (R69), and able to fetch there: not halted,
and the program counter at 0x200 where no fetch could succeed. -/
def State.placeWord (s : State) (w : Word) : State :=
  let a : Word := if s.pc.toNat + 2 > Config.memSize then 0x200 else s.pc
  { s with
    pc := a
    halt := none
    mem := (s.mem.insert a.toNat (w.extractLsb' 8 8)).insert (a.toNat + 1) (w.extractLsb' 0 8) }

end Sys2Proof.Machine
end

