-- ==== Sys2Proof/Machine/Operands.lean ====
section
/-! DEFINITION. The operand forms of 30_encoding.md R93: a register, an 8-bit immediate as it stands, a 12-bit address
zero-extended, and what `Draw` takes from its registers and memory (46_draw.md R201, R202, R204, R205). -/

namespace Sys2Proof.Machine

/-- A 12-bit address where it is written to `pc` or `I`: zero-extended, absolute (R93). -/
def addrOperand (nnn : Addr12) : Word := zext16 nnn

/-- The target of `OffsetJump` (R153): `zext_16(NNN) + zext_16(x[0])`, not reduced to 12 bits (decision D21 of the
spec, log 18). The register is always `x[0]`. -/
def offsetTarget (s : State) (nnn : Addr12) : Word := zext16 nnn + zext16 (s.reg 0)

/-- `sx = x[X] & 0x3F` (R204), a column 0 to 63. -/
def startColumn (s : State) (x : Reg) : Nat := (s.reg x &&& 0x3F).toNat

/-- `sy = x[Y] & 0x1F` (R204), a row 0 to 31. -/
def startRow (s : State) (y : Reg) : Nat := (s.reg y &&& 0x1F).toNat

/-- The condition of R202 under which a sprite of height `n` at `I` runs past memory: `I + N > 4096`, over all rows
whether clipped or not (decision D11 of the spec, log 15). -/
def spriteOutOfBounds (s : State) (n : Nibble) : Bool := decide (s.index.toNat + n.toNat > Config.memSize)

/-- The bytes at `a`, `a + 1`, … of memory, `count` of them. -/
def Memory.bytesFrom (m : Memory) (a : Nat) : Nat → List Byte
  | 0 => []
  | count + 1 => m.peek a :: Memory.bytesFrom m (a + 1) count

/-- The `N` rows of the sprite at `I`, top row first (R205); asked for only after the check of R202. -/
def spriteRows (s : State) (n : Nibble) : List Byte := s.mem.bytesFrom s.index.toNat n.toNat

end Sys2Proof.Machine
end

