-- ==== Sys2Proof/Machine/Flags.lean ====
section
/-! DEFINITION. The value each instruction writes to the flag register `x[15]` (10_state.md R23). -/

namespace Sys2Proof.Machine

/-- A condition as a flag byte: 1 or 0. -/
def flagOf (b : Bool) : Byte := if b then 1 else 0

/-- `Add` (R184): 1 if `a + b > 255`, else 0. -/
def carryFlag (a b : Byte) : Byte := flagOf (decide (a.toNat + b.toNat > 255))

/-- `Sub` and `SubN` (R185, R187): 1 if `a - b` borrows, that is `a < b`, else 0 (R192: 1 ON borrow). -/
def borrowFlag (a b : Byte) : Byte := flagOf (decide (a.toNat < b.toNat))

/-- `Shr` (R186): bit 0 of the value about to be shifted. -/
def shrFlag (v : Byte) : Byte := v &&& 0x01

/-- `Shl` (R188): the raw `v & 0x80`, 0x80 or 0x00, not normalised. -/
def shlFlag (v : Byte) : Byte := v &&& 0x80

/-- `Draw` (R201, R206): 1 if a lit pixel was turned off, else 0. -/
def collisionFlag (collided : Bool) : Byte := flagOf collided

/-- Result first, flag second (R190, decision D9 of the spec, log 13): with `X = 15` the flag is what remains. -/
def State.setResultThenFlag (s : State) (x : Reg) (result flag : Byte) : State :=
  (s.setReg x result).setReg flagReg flag

end Sys2Proof.Machine
end

