-- ==== Sys2Proof/Machine/Address.lean ====
section
/-! DEFINITION. The 12-bit-address instructions (42_address.md). Every meaning runs after the fetch and the increment of
`pc` (40_tick_cycle.md R133); no target is checked when the instruction executes. -/

namespace Sys2Proof.Machine

/-- `AbsJump(NNN)` (R150). -/
def execAbsJump (nnn : Addr12) (s : State) : Result := .next (s.setPc (addrOperand nnn))

/-- `Call(NNN)` (R151): the program counter pushed is already the address of this `Call` plus 2. -/
def execCall (nnn : Addr12) (s : State) : Result := .next ((s.push s.pc).setPc (addrOperand nnn))

/-- `SetIndex(NNN)` (R152): the one instruction that writes `I`. -/
def execSetIndex (nnn : Addr12) (s : State) : Result := .next (s.setIndex (addrOperand nnn))

/-- `OffsetJump(NNN)` (R153). -/
def execOffsetJump (nnn : Addr12) (s : State) : Result := .next (s.setPc (offsetTarget s nnn))

end Sys2Proof.Machine
end

