-- ==== Sys2Proof/Machine/Alu.lean ====
section
/-! DEFINITION. The ALU instructions (45_alu.md). Every meaning runs after the fetch and the increment of `pc`
(40_tick_cycle.md R133). The subtract flag is 1 ON borrow, the shifts copy `x[Y]` first, and the flag of `Shl` is the
raw 0x80 (R192: this hardware, not the common convention). -/

namespace Sys2Proof.Machine

/-- `Mov(X, Y)` (R180). -/
def execMov (x y : Reg) (s : State) : Result := .next (s.setReg x (s.reg y))

/-- `Or(X, Y)` (R181): the flag register is left alone unless `X = 15`. -/
def execOr (x y : Reg) (s : State) : Result := .next (s.setReg x (s.reg x ||| s.reg y))

/-- `And(X, Y)` (R182). -/
def execAnd (x y : Reg) (s : State) : Result := .next (s.setReg x (s.reg x &&& s.reg y))

/-- `Xor(X, Y)` (R183). -/
def execXor (x y : Reg) (s : State) : Result := .next (s.setReg x (s.reg x ^^^ s.reg y))

/-- `Add(X, Y)` (R184): both operands read before any write, the carry written last. -/
def execAdd (x y : Reg) (s : State) : Result :=
  .next (s.setResultThenFlag x (s.reg x + s.reg y) (carryFlag (s.reg x) (s.reg y)))

/-- `Sub(X, Y)` (R185): `x[X] - x[Y]`, the borrow written last. -/
def execSub (x y : Reg) (s : State) : Result :=
  .next (s.setResultThenFlag x (s.reg x - s.reg y) (borrowFlag (s.reg x) (s.reg y)))

/-- `SubN(X, Y)` (R187): `x[Y] - x[X]` into `x[X]`, the borrow written last. -/
def execSubN (x y : Reg) (s : State) : Result :=
  .next (s.setResultThenFlag x (s.reg y - s.reg x) (borrowFlag (s.reg y) (s.reg x)))

/-- The copy-then-shift sequence of R186 and R188: `x[X] <- x[Y]`, then the flag of `x[X]`, then the shift of `x[X]`,
each statement reading the registers as the one before left them. -/
def copyThenShift (x y : Reg) (flag shift : Byte → Byte) (s : State) : State :=
  let copied := s.setReg x (s.reg y)
  let flagged := copied.setReg flagReg (flag (copied.reg x))
  flagged.setReg x (shift (flagged.reg x))

/-- `Shr(X, Y)` (R186): logical shift by one; with `X = 15` the register ends as 0. -/
def execShr (x y : Reg) (s : State) : Result := .next (copyThenShift x y shrFlag (· >>> 1) s)

/-- `Shl(X, Y)` (R188): shift left by one, bit 7 lost; with `X = 15` the register ends as 0. -/
def execShl (x y : Reg) (s : State) : Result := .next (copyThenShift x y shlFlag (· <<< 1) s)

end Sys2Proof.Machine
end

