-- ==== Sys2Proof/Machine/Draw.lean ====
section
/-! DEFINITION. `Draw` (46_draw.md). It runs after the fetch and the increment of `pc` (40_tick_cycle.md R133). -/

namespace Sys2Proof.Machine

/-- `Draw` past the bounds check of R202: the sprite is composited at the coordinates the registers held before
`x[15]` is reset (R204, decision D10 of the spec, log 14), `x[15]` receives the collision result (R206), and the whole
grid is sent as one `Paint` (R207); a failing surface raises `RenderFailure` after all of it. The rows are read before
the loops and `x[15]` is written once after them: the same result as R201's order (DEDUCED, log 24). -/
def drawSprite (x y : Reg) (n : Nibble) (s : State) : State :=
  let b := blit s.fb (startColumn s x) (startRow s y) (spriteRows s n)
  ((s.setFb b.grid).setReg flagReg (collisionFlag b.collision)).render (.paint b.grid)

/-- `Draw(X, Y, N)` (R201): a sprite that runs past memory raises `OutOfBounds(Sprite)` before any write (R202, R244,
decision D11 of the spec, log 15). -/
def execDraw (x y : Reg) (n : Nibble) (s : State) : Result :=
  .next (if spriteOutOfBounds s n then s.raise (.outOfBounds (.sprite s.index n)) else drawSprite x y n s)

end Sys2Proof.Machine
end

