-- ==== Sys2Proof/Machine/Fixed.lean ====
section
/-! DEFINITION. The fixed instructions (41_fixed.md). Every meaning runs after the fetch and the increment of `pc`
(40_tick_cycle.md R133). -/

namespace Sys2Proof.Machine

/-- `Clear` (R140): all pixels false, then the request `ClearOutput` (90_conflicts.md C3, log 10); a failing surface
raises `RenderFailure` after the framebuffer has been cleared. -/
def execClear (s : State) : Result :=
  .next ((s.setFb Framebuffer.blank).render .clearOutput)

/-- `Return` (R141): pop the call stack into the program counter; an empty stack raises `StackUnderflow` (R241). -/
def execReturn (s : State) : Result :=
  match s.pop with
  | none => .next (s.raise .stackUnderflow)
  | some (v, s') => .next (s'.setPc v)

end Sys2Proof.Machine
end

