-- ==== Sys2Proof/Machine/RegImm.lean ====
section
/-! DEFINITION. The register-and-immediate instructions (43_reg_imm.md). Every meaning runs after the fetch and the
increment of `pc` (40_tick_cycle.md R133). -/

namespace Sys2Proof.Machine

/-- Skip the next instruction, 2 more bytes, if the condition holds (R160, R27); the skipped word is not looked at. -/
def skipIf (cond : Bool) (s : State) : Result := .next (if cond then s.advancePc else s)

/-- `SkipEqVal(X, KK)` (R160). -/
def execSkipEqVal (x : Reg) (kk : Byte) (s : State) : Result := skipIf (s.reg x == kk) s

/-- `SkipNeqVal(X, KK)` (R161). -/
def execSkipNeqVal (x : Reg) (kk : Byte) (s : State) : Result := skipIf (s.reg x != kk) s

/-- `SetVal(X, KK)` (R162). -/
def execSetVal (x : Reg) (kk : Byte) (s : State) : Result := .next (s.setReg x kk)

/-- `AddVal(X, KK)` (R163): wraps modulo 256, no flag. -/
def execAddVal (x : Reg) (kk : Byte) (s : State) : Result := .next (s.setReg x (s.reg x + kk))

/-- `Rand(X, KK)` (R164): the drawn byte and the mask; the old value of `x[X]` is not used. -/
def execRand (x : Reg) (kk : Byte) (s : State) : Result :=
  .next (s.afterRand.setReg x (s.inputs.nextRand &&& kk))

end Sys2Proof.Machine
end

