-- ==== Sys2Proof/Machine/RegReg.lean ====
section
/-! DEFINITION. The register-and-register skips (44_reg_reg.md). Every meaning runs after the fetch and the increment of
`pc` (40_tick_cycle.md R133). -/

namespace Sys2Proof.Machine

/-- `SkipEqReg(X, Y)` (R170). -/
def execSkipEqReg (x y : Reg) (s : State) : Result := skipIf (s.reg x == s.reg y) s

/-- `SkipNeqReg(X, Y)` (R171). -/
def execSkipNeqReg (x y : Reg) (s : State) : Result := skipIf (s.reg x != s.reg y) s

end Sys2Proof.Machine
end

