-- ==== Sys2Proof/Machine/Unimplemented.lean ====
section
/-! DEFINITION. The eleven tags that decode and do not execute, and `Unknown` (47_unimplemented.md): each one's whole
effect is the fault R220 gives it. None reads or writes a register, a timer, `I`, memory, a pixel or the stack. -/

namespace Sys2Proof.Machine

/-- `raise UnimplementedOpcode(iv, w)` of R220. The raw word is recovered by the encoder: these encodings have no
ignored bit (R110), so it is the fetched word (log 20). -/
def raiseUnimplemented (iv : Instr) (s : State) : Result :=
  .next (s.raise (.unimplementedOpcode iv (encode iv)))

/-- `SkipKeyPressed(X)` (R221): never skips. -/
def execSkipKeyPressed (x : Reg) (s : State) : Result := raiseUnimplemented (.skipKeyPressed x) s

/-- `SkipKeyNotPressed(X)` (R222): never skips. -/
def execSkipKeyNotPressed (x : Reg) (s : State) : Result := raiseUnimplemented (.skipKeyNotPressed x) s

/-- `GetDelay(X)` (R223): `DT` is not read. -/
def execGetDelay (x : Reg) (s : State) : Result := raiseUnimplemented (.getDelay x) s

/-- `WaitKey(X)` (R224): it does not wait. -/
def execWaitKey (x : Reg) (s : State) : Result := raiseUnimplemented (.waitKey x) s

/-- `SetDelay(X)` (R225): `DT` is not written. -/
def execSetDelay (x : Reg) (s : State) : Result := raiseUnimplemented (.setDelay x) s

/-- `SetSound(X)` (R226): `ST` is not written. -/
def execSetSound (x : Reg) (s : State) : Result := raiseUnimplemented (.setSound x) s

/-- `AddIndex(X)` (R227): `I` is not changed. -/
def execAddIndex (x : Reg) (s : State) : Result := raiseUnimplemented (.addIndex x) s

/-- `SetIndexFont(X)` (R228): `I` is not changed. -/
def execSetIndexFont (x : Reg) (s : State) : Result := raiseUnimplemented (.setIndexFont x) s

/-- `StoreBcd(X)` (R229): memory is not written. -/
def execStoreBcd (x : Reg) (s : State) : Result := raiseUnimplemented (.storeBcd x) s

/-- `DumpRegs(X)` (R230): memory is not written. -/
def execDumpRegs (x : Reg) (s : State) : Result := raiseUnimplemented (.dumpRegs x) s

/-- `LoadRegs(X)` (R231): memory is not read, never `OutOfBounds`. -/
def execLoadRegs (x : Reg) (s : State) : Result := raiseUnimplemented (.loadRegs x) s

/-- `Unknown(w)` (R232). -/
def execUnknown (w : Word) (s : State) : Result := raiseUnimplemented (.unknown w) s

end Sys2Proof.Machine
end

