-- ==== Sys2Proof/Machine/Dispatch.lean ====
section
/-! DEFINITION. Dispatch (40_tick_cycle.md R131): one arm per tag, each a direct call of its meaning. -/

namespace Sys2Proof.Machine

def exec (i : Instr) (s : State) : Host.Outcome State Fault Refusal :=
  match i with
  | .clear => Sys2Proof.Machine.execClear s
  | .ret => Sys2Proof.Machine.execReturn s
  | .absJump nnn => Sys2Proof.Machine.execAbsJump nnn s
  | .call nnn => Sys2Proof.Machine.execCall nnn s
  | .skipEqVal x kk => Sys2Proof.Machine.execSkipEqVal x kk s
  | .skipNeqVal x kk => Sys2Proof.Machine.execSkipNeqVal x kk s
  | .skipEqReg x y => Sys2Proof.Machine.execSkipEqReg x y s
  | .setVal x kk => Sys2Proof.Machine.execSetVal x kk s
  | .addVal x kk => Sys2Proof.Machine.execAddVal x kk s
  | .mov x y => Sys2Proof.Machine.execMov x y s
  | .or x y => Sys2Proof.Machine.execOr x y s
  | .and x y => Sys2Proof.Machine.execAnd x y s
  | .xor x y => Sys2Proof.Machine.execXor x y s
  | .add x y => Sys2Proof.Machine.execAdd x y s
  | .sub x y => Sys2Proof.Machine.execSub x y s
  | .shr x y => Sys2Proof.Machine.execShr x y s
  | .subN x y => Sys2Proof.Machine.execSubN x y s
  | .shl x y => Sys2Proof.Machine.execShl x y s
  | .skipNeqReg x y => Sys2Proof.Machine.execSkipNeqReg x y s
  | .setIndex nnn => Sys2Proof.Machine.execSetIndex nnn s
  | .offsetJump nnn => Sys2Proof.Machine.execOffsetJump nnn s
  | .rand x kk => Sys2Proof.Machine.execRand x kk s
  | .draw x y n => Sys2Proof.Machine.execDraw x y n s
  | .skipKeyPressed x => Sys2Proof.Machine.execSkipKeyPressed x s
  | .skipKeyNotPressed x => Sys2Proof.Machine.execSkipKeyNotPressed x s
  | .getDelay x => Sys2Proof.Machine.execGetDelay x s
  | .waitKey x => Sys2Proof.Machine.execWaitKey x s
  | .setDelay x => Sys2Proof.Machine.execSetDelay x s
  | .setSound x => Sys2Proof.Machine.execSetSound x s
  | .addIndex x => Sys2Proof.Machine.execAddIndex x s
  | .setIndexFont x => Sys2Proof.Machine.execSetIndexFont x s
  | .storeBcd x => Sys2Proof.Machine.execStoreBcd x s
  | .dumpRegs x => Sys2Proof.Machine.execDumpRegs x s
  | .loadRegs x => Sys2Proof.Machine.execLoadRegs x s
  | .unknown w => Sys2Proof.Machine.execUnknown w s

end Sys2Proof.Machine
end

