-- ==== Sys2Proof/Machine/Step.lean ====
section
/-! DEFINITION. The tick (40_tick_cycle.md R130): fetch, increment, decode, execute. Its two free inputs stand in
`State.inputs`. -/

namespace Sys2Proof.Machine

/-- One tick (R130). A halted core does nothing (R134, decision D12 of the spec, log 1); a fetch past memory raises
`OutOfBounds(Fetch)` with `pc` unchanged (R63, R243, decision D15 of the spec, log 17); else the instruction runs on
the state whose `pc` is already incremented (R133). -/
def step (s : State) : Host.Outcome State Fault Refusal :=
  match s.halt with
  | some _ => .next s
  | none =>
    match s.fetch with
    | none => .next (s.raise (.outOfBounds (.fetch s.pc)))
    | some w => exec (decodeWord w) s.advancePc

/-- `s` with the instruction whose `nbits` low bits are `w` stored where the next tick fetches, and able to fetch
(log 19): no instruction is longer than one 16-bit word (R90). -/
def State.withFetchWord (s : State) (nbits w : Nat) : State :=
  s.placeWord (BitVec.ofNat 16 (w % 2 ^ nbits))

end Sys2Proof.Machine
end

