-- ==== Sys2Proof/Machine/Driver.lean ====
section
/-! DEFINITION. The transactions the host drives the core with (10_state.md R42): `reset()`, `load(bytes)` and
`tick(rand, render_result)`, and the order they may come in (70_reset_and_hazards.md R288, R290, R291). -/

namespace Sys2Proof.Machine

/-- `load(bytes)` on the core (R286): the image is copied to 0x200 up; one longer than 3584 bytes raises
`OutOfBounds(Load)` and writes nothing (R287, R245, decision D19 of the spec, log 19). -/
def State.load (s : State) (bytes : List Byte) : State :=
  if bytes.length > Config.progMax then s.raise (.outOfBounds (.load bytes.length))
  else
    match s.mem.writeBytes Config.progBase bytes with
    | none => s.raise (.outOfBounds (.load bytes.length))
    | some m => { s with mem := m }

/-- The state with the two inputs of the next tick fixed by the driver (R43, R44). -/
def State.offer (s : State) (rand : Byte) (answer : RenderResult) : State :=
  { s with inputs := { s.inputs with rands := [rand], answers := [answer] } }

/-- The state with no input fixed: an input a tick has not used is ignored (R43). -/
def State.withdraw (s : State) : State :=
  { s with inputs := { s.inputs with rands := [], answers := [] } }

/-- `tick(rand, render_result)` of R42 and R130 (decision D20 of the spec, log 22). -/
def tick (rand : Byte) (answer : RenderResult) (s : State) : Result :=
  match step (s.offer rand answer) with
  | .next t => .next t.withdraw
  | .fault f => .fault f
  | .refused r => .refused r

/-- The three operations of R42. -/
inductive Transaction where
  | reset
  | load (bytes : List Byte)
  | tick (rand : Byte) (answer : RenderResult)
deriving DecidableEq, Repr

/-- What the driver has done since the last reset (R288, R290): the host's protocol, not state of the core. -/
inductive Phase where
  | fresh
  | loaded
  | ticked
deriving DecidableEq, Repr

/-- The core and the driver's phase. -/
structure Session where
  core : State
  phase : Phase
deriving DecidableEq, Repr

/-- The session right after `reset()`. -/
def Session.start : Session := ⟨State.reset, .fresh⟩

/-- One transaction. `load` is defined once, after a reset and before any tick; anywhere else it is refused (R288,
decision D19 of the spec, log 19). -/
def transact (x : Transaction) (p : Session) : Host.Outcome Session Fault Refusal :=
  match x with
  | .reset => .next Session.start
  | .load bytes =>
    match p.phase with
    | .fresh => .next ⟨p.core.load bytes, .loaded⟩
    | .loaded => .refused .loadOutOfPhase
    | .ticked => .refused .loadOutOfPhase
  | .tick rand answer =>
    match tick rand answer p.core with
    | .next t => .next ⟨t, .ticked⟩
    | .fault f => .fault f
    | .refused r => .refused r

end Sys2Proof.Machine
end

