-- ==== Sys2Proof/Safety.lean ====
section
/-! DEFINITION. The terms the statements are made in: a run that has not gone wrong (60_exceptions.md R250), the
invariant of 10_state.md R47, frames (what an instruction leaves unchanged), which registers R22 says an instruction
reads and writes, and the sprite of 46_draw.md R200 seen pixel by pixel. -/

namespace Sys2Proof.Machine

/-- A state of a run that has not gone wrong: "A halted state is never a successful end of a run" (R250). -/
def State.Running (s : State) : Prop := s.halt = none

/-- The instruction the next tick of a running core executes: none where the fetch is out of bounds. -/
def State.fetched (s : State) : Option Instr := s.fetch.map decodeWord

/-! ## The invariant of R47 -/

/-- What R47 (b) to (e) say of every reachable state, and that the memory keeps its canonical form. R47 (a) and (f) are
claims about a tick, not about a state. -/
structure State.Inv (s : State) : Prop where
  /-- The memory is in canonical form. -/
  mem_wf : s.mem.wf = true
  /-- R47 (b): `I <= 0xFFF`. -/
  index_le : s.index.toNat ≤ 0xFFF
  /-- R47 (c): `pc <= 0x10FE`. -/
  pc_le : s.pc.toNat ≤ 0x10FE
  /-- R47 (d): `DT = 0`. It rests on the reset value of decision D5 of the spec (log 3). -/
  dt_zero : s.dt = 0
  /-- R47 (d): `ST = 0`. It rests on the reset value of decision D5 of the spec (log 3). -/
  st_zero : s.st = 0
  /-- R47 (e): every stack entry is at least 2 and at most 4096. -/
  stack_range : ∀ v ∈ s.stack, 2 ≤ v.toNat ∧ v.toNat ≤ 4096

/-! ## Frames -/

/-- The parts of a state beside the general registers. -/
inductive Part where
  | pc | index | stack | dt | st | fb | mem | halt | history | inputs
deriving DecidableEq, Repr

/-- A part is the same in two states; memory, byte by byte. -/
def Part.Same (s t : State) : Part → Prop
  | .pc => t.pc = s.pc
  | .index => t.index = s.index
  | .stack => t.stack = s.stack
  | .dt => t.dt = s.dt
  | .st => t.st = s.st
  | .fb => t.fb = s.fb
  | .mem => ∀ a, t.mem.peek a = s.mem.peek a
  | .halt => t.halt = s.halt
  | .history => t.history = s.history
  | .inputs => t.inputs = s.inputs

/-- From `s` to `t` nothing changes but the listed registers and the listed parts. -/
def OnlyChanges (regs : List Reg) (parts : List Part) (s t : State) : Prop :=
  (∀ r, r ∉ regs → t.reg r = s.reg r) ∧ ∀ p, p ∉ parts → p.Same s t

/-! ## Which registers an instruction reads and writes (R22) -/

/-- The registers R22 says an instruction reads. -/
def readRegs : Instr → List Reg
  | .clear => []
  | .ret => []
  | .absJump _ => []
  | .call _ => []
  | .skipEqVal x _ => [x]
  | .skipNeqVal x _ => [x]
  | .skipEqReg x y => [x, y]
  | .setVal _ _ => []
  | .addVal x _ => [x]
  | .mov _ y => [y]
  | .or x y => [x, y]
  | .and x y => [x, y]
  | .xor x y => [x, y]
  | .add x y => [x, y]
  | .sub x y => [x, y]
  | .shr _ y => [y]
  | .subN x y => [x, y]
  | .shl _ y => [y]
  | .skipNeqReg x y => [x, y]
  | .setIndex _ => []
  | .offsetJump _ => [0]
  | .rand _ _ => []
  | .draw x y _ => [x, y]
  | .skipKeyPressed _ => []
  | .skipKeyNotPressed _ => []
  | .getDelay _ => []
  | .waitKey _ => []
  | .setDelay _ => []
  | .setSound _ => []
  | .addIndex _ => []
  | .setIndexFont _ => []
  | .storeBcd _ => []
  | .dumpRegs _ => []
  | .loadRegs _ => []
  | .unknown _ => []

/-- The registers R22 says an instruction writes (the flag register among them, R23). -/
def writtenRegs : Instr → List Reg
  | .clear => []
  | .ret => []
  | .absJump _ => []
  | .call _ => []
  | .skipEqVal _ _ => []
  | .skipNeqVal _ _ => []
  | .skipEqReg _ _ => []
  | .setVal x _ => [x]
  | .addVal x _ => [x]
  | .mov x _ => [x]
  | .or x _ => [x]
  | .and x _ => [x]
  | .xor x _ => [x]
  | .add x _ => [x, 15]
  | .sub x _ => [x, 15]
  | .shr x _ => [x, 15]
  | .subN x _ => [x, 15]
  | .shl x _ => [x, 15]
  | .skipNeqReg _ _ => []
  | .setIndex _ => []
  | .offsetJump _ => []
  | .rand x _ => [x]
  | .draw _ _ _ => [15]
  | .skipKeyPressed _ => []
  | .skipKeyNotPressed _ => []
  | .getDelay _ => []
  | .waitKey _ => []
  | .setDelay _ => []
  | .setSound _ => []
  | .addIndex _ => []
  | .setIndexFont _ => []
  | .storeBcd _ => []
  | .dumpRegs _ => []
  | .loadRegs _ => []
  | .unknown _ => []

/-! ## A sprite, pixel by pixel -/

/-- The sprite bit that falls on row `r`, column `c` of the plane when the sprite's top-left corner is at row `sy`,
column `sx` (R200, R205): row-offset `r - sy` is that byte of the sprite, bit-offset `c - sx` is bit `7 - (c - sx)` of
it; false outside the sprite's rectangle. -/
def spriteBit (rows : List Byte) (sx sy r c : Nat) : Bool :=
  decide (sy ≤ r) && decide (r < sy + rows.length) && decide (sx ≤ c) && decide (c < sx + 8) &&
    (rows.getD (r - sy) 0).getLsbD (7 - (c - sx))

/-- Some lit pixel of the grid lies under a 1 bit of the sprite (R206). -/
def Collides (fb : Framebuffer) (rows : List Byte) (sx sy : Nat) : Prop :=
  ∃ r c, r < 32 ∧ c < 64 ∧ fb.pixel r c = true ∧ spriteBit rows sx sy r c = true

end Sys2Proof.Machine
end

