-- ==== Sys2Proof/Certificates/Slice0/Obligations.lean ====
section
/-! DEFINITION. The statements for the provers, from the numbered rules of spec/; OBLIGATIONS.json lists them in this
order. -/

open Sys2Proof Sys2Proof.Machine

/-- For every well-formed instruction value, with every operand at every value, decoding the word the encoder writes
gives that instruction value back. (The decoder rests on the decisions D1 and D2 of the spec, log 6 and 7.)
[30_encoding.md R95, 30_encoding.md R100, 30_encoding.md R120] -/
def Obligations.DecodeOfEncodeIsIdentity : Prop :=
  ∀ i : Instr, i.wf = true → decodeWord (encode i) = i

/-- For every word, encoding what it decodes to gives the word with exactly the ignored bits of its tag cleared: bits 11
to 8 of Clear and Return, bits 3 to 0 of SkipEqReg and SkipNeqReg, no other bit. (Bits 11 to 8: decision D1 of the
spec, log 6.) [30_encoding.md R110, 30_encoding.md R120] -/
def Obligations.EncodeOfDecodeKeepsSignificantBits : Prop :=
  ∀ w : Word, encode (decodeWord w) = w &&& significantBits (decodeWord w).tag

/-- For every one of the 65536 words the decoder answers a well-formed instruction value: an Unknown only for a word of
the four regions of R109. (The regions rest on the decisions D1 and D2 of the spec, log 6 and 7.) [30_encoding.md
R94, 30_encoding.md R109] -/
def Obligations.DecodedInstructionIsWellFormed : Prop :=
  ∀ w : Word, (decodeWord w).wf = true

/-- No word is selected by two of the 34 rows of the opcode map; a row selects a word exactly if the word decodes to the
tag of that row; a word that no row selects, and only such a word, decodes to Unknown carrying that word. (Rows
under decisions D1 and D2 of the spec, log 6 and 7.) [30_encoding.md R100, 30_encoding.md R115] -/
def Obligations.OpcodeRowsDisjointAndDecoderAgrees : Prop :=
  opcodeRows.length = 34 ∧
  opcodeRows.Pairwise (fun a b => ∀ w : Word, ¬ (a.selects w = true ∧ b.selects w = true)) ∧
  (∀ w : Word, ∀ row ∈ opcodeRows, row.selects w = true ↔ (decodeWord w).tag = row.tag) ∧
  (∀ w : Word, decodeWord w = .unknown w ↔ ∀ row ∈ opcodeRows, row.selects w = false)

/-- The six example words of the source and the get-delay word it anchors decode to the instruction values the source
gives. [95_test_vectors.md part 1 items 2a to 2f, 90_conflicts.md C1, 90_conflicts.md C2] -/
def Obligations.SourceExampleWordsDecode : Prop :=
  decodeWord 0x00E0 = .clear ∧ decodeWord 0x1234 = .absJump 0x234 ∧ decodeWord 0x6A3C = .setVal 0xA 0x3C ∧
  decodeWord 0x8AB4 = .add 0xA 0xB ∧ decodeWord 0xD012 = .draw 0 1 2 ∧ decodeWord 0x5001 = .skipEqReg 0 0 ∧
  decodeWord 0xF007 = .getDelay 0

/-- For every 12-bit value NNN the words 1NNN, 2NNN, ANNN and BNNN decode to AbsJump, Call, SetIndex and OffsetJump of
NNN. [R102] -/
def Obligations.AddressFamilyWordsDecode : Prop :=
  ∀ nnn : Addr12,
  decodeWord (0x1#4 ++ nnn) = .absJump nnn ∧ decodeWord (0x2#4 ++ nnn) = .call nnn ∧
  decodeWord (0xA#4 ++ nnn) = .setIndex nnn ∧ decodeWord (0xB#4 ++ nnn) = .offsetJump nnn

/-- For every X and KK the words 3XKK, 4XKK, 6XKK, 7XKK and CXKK decode to SkipEqVal, SkipNeqVal, SetVal, AddVal and
Rand of X and KK. [R103] -/
def Obligations.RegisterImmediateFamilyWordsDecode : Prop :=
  ∀ (x : Reg) (kk : Byte),
  decodeWord (0x3#4 ++ (x ++ kk)) = .skipEqVal x kk ∧ decodeWord (0x4#4 ++ (x ++ kk)) = .skipNeqVal x kk ∧
  decodeWord (0x6#4 ++ (x ++ kk)) = .setVal x kk ∧ decodeWord (0x7#4 ++ (x ++ kk)) = .addVal x kk ∧
  decodeWord (0xC#4 ++ (x ++ kk)) = .rand x kk

/-- For every X, Y and low nibble the words 5XYn and 9XYn decode to SkipEqReg and SkipNeqReg of X and Y. [R104] -/
def Obligations.RegisterRegisterFamilyIgnoresLowNibble : Prop :=
  ∀ (x y : Reg) (n : Nibble),
  decodeWord (0x5#4 ++ (x ++ (y ++ n))) = .skipEqReg x y ∧ decodeWord (0x9#4 ++ (x ++ (y ++ n))) = .skipNeqReg x y

/-- For every X and Y the word 8XYn decodes to Mov, Or, And, Xor, Add, Sub, Shr, SubN, Shl for n = 0 to 7 and E, and to
Unknown of the word for the other seven values of n. [R105] -/
def Obligations.AluFamilyWordsDecode : Prop :=
  ∀ x y : Reg,
  decodeWord (0x8#4 ++ (x ++ (y ++ 0x0#4))) = .mov x y ∧ decodeWord (0x8#4 ++ (x ++ (y ++ 0x1#4))) = .or x y ∧
  decodeWord (0x8#4 ++ (x ++ (y ++ 0x2#4))) = .and x y ∧ decodeWord (0x8#4 ++ (x ++ (y ++ 0x3#4))) = .xor x y ∧
  decodeWord (0x8#4 ++ (x ++ (y ++ 0x4#4))) = .add x y ∧ decodeWord (0x8#4 ++ (x ++ (y ++ 0x5#4))) = .sub x y ∧
  decodeWord (0x8#4 ++ (x ++ (y ++ 0x6#4))) = .shr x y ∧ decodeWord (0x8#4 ++ (x ++ (y ++ 0x7#4))) = .subN x y ∧
  decodeWord (0x8#4 ++ (x ++ (y ++ 0xE#4))) = .shl x y ∧
  ∀ n ∈ [0x8#4, 0x9#4, 0xA#4, 0xB#4, 0xC#4, 0xD#4, 0xF#4],
    decodeWord (0x8#4 ++ (x ++ (y ++ n))) = .unknown (0x8#4 ++ (x ++ (y ++ n)))

/-- For every X, Y and N the word DXYN decodes to Draw of X, Y and N. [R106] -/
def Obligations.DrawFamilyWordsDecode : Prop :=
  ∀ (x y : Reg) (n : Nibble), decodeWord (0xD#4 ++ (x ++ (y ++ n))) = .draw x y n

/-- Where the core is not halted and both bytes at the program counter lie inside memory, a step is exec of the
instruction those two bytes decode to, high byte first, on the state whose program counter is 2 more and which is
otherwise the same. [40_tick_cycle.md R130, 40_tick_cycle.md R133, 20_memory.md R63] -/
def Obligations.StepRunsDecodedInstruction : Prop :=
  ∀ s : State, s.halt = none → s.pc.toNat ≤ 4094 →
  step s = exec (decodeWord (s.mem.peek s.pc.toNat ++ s.mem.peek (s.pc.toNat + 1))) { s with pc := s.pc + 2 }

/-- Where the core is not halted and the program counter is 4095 or more, a step sets the halt latch to
OutOfBounds(Fetch, pc) and changes no other part of the state. (The exact bound and the unchanged pc are decision
D15 of the spec, log 17; the latch is D12, log 1.) [20_memory.md R63, 60_exceptions.md R243, 92_eei_decisions.md
D15] -/
def Obligations.FetchPastMemoryLatchesOutOfBounds : Prop :=
  ∀ s : State, s.halt = none → 4095 ≤ s.pc.toNat →
  ∃ t, step s = .next t ∧ t.halt = some (.outOfBounds (.fetch s.pc)) ∧ OnlyChanges [] [.halt] s t

/-- Where the halt latch is set a step answers the same state, for any number of ticks. (Decision D12 of the spec, log
1.) [40_tick_cycle.md R134, 92_eei_decisions.md D12] -/
def Obligations.HaltedCoreNeverChanges : Prop :=
  ∀ s : State, s.halt ≠ none → step s = .next s ∧ ∀ k, Sys2Proof.core.run k s = .next s

/-- The step never ends outside the state: whatever the state, it answers a next state, and so does exec for every
instruction (a fault of the hardware is a next state with the latch set: log 1). [40_tick_cycle.md R131,
60_exceptions.md R248, 92_eei_decisions.md D12] -/
def Obligations.EveryStepAnswersNextState : Prop :=
  (∀ (i : Instr) (s : State), ∃ t, exec i s = .next t) ∧ ∀ s : State, ∃ t, step s = .next t

/-- For every state with a canonical memory and every word, the step after the word is placed runs exactly the
instruction the word decodes to. (How a word is placed is the model's own, log 19.) [20_memory.md R63, 20_memory.md
R75, 40_tick_cycle.md R130] -/
def Obligations.PlacedWordIsFetchedAndRun : Prop :=
  ∀ (s : State) (w : Nat), s.mem.wf = true →
  step (s.withFetchWord 16 w) =
    exec (decodeWord (BitVec.ofNat 16 w)) { s.withFetchWord 16 w with pc := (s.withFetchWord 16 w).pc + 2 }

/-- The high byte of a fetched word is the byte at the program counter and its low byte the next one; row k of a sprite
is the byte at I + k, the byte a fetch there would put in its high byte and a fetch one address below in its low
byte. [R69] -/
def Obligations.FetchAndSpriteReadsSeeTheSameBytes : Prop :=
  (∀ (s : State) (w : Word), s.fetch = some w →
    w.extractLsb' 8 8 = s.mem.peek s.pc.toNat ∧ w.extractLsb' 0 8 = s.mem.peek (s.pc.toNat + 1)) ∧
  (∀ (s : State) (n : Nibble) (k : Nat), k < n.toNat → (spriteRows s n)[k]? = some (s.mem.peek (s.index.toNat + k)))

/-- For every tick of a running core from fetch address a: AbsJump and Call leave NNN, OffsetJump NNN + x[0] not reduced
(D21 of the spec, log 18), Return the popped value, a skip a + 4 if its condition holds and a + 2 if not, a fetch
fault a (D15, log 17), everything else, the tags that fault included, a + 2. [10_state.md R28, 10_state.md R27,
92_eei_decisions.md D15, 92_eei_decisions.md D21] -/
def Obligations.PcAfterEveryTick : Prop :=
  ∀ s t : State, s.halt = none → step s = .next t →
  t.pc = match s.fetched with
    | none => s.pc
    | some (.absJump nnn) => zext16 nnn
    | some (.call nnn) => zext16 nnn
    | some (.offsetJump nnn) => zext16 nnn + zext16 (s.reg 0)
    | some .ret => s.stack.headD (s.pc + 2)
    | some (.skipEqVal x kk) => if s.reg x = kk then s.pc + 4 else s.pc + 2
    | some (.skipNeqVal x kk) => if s.reg x = kk then s.pc + 2 else s.pc + 4
    | some (.skipEqReg x y) => if s.reg x = s.reg y then s.pc + 4 else s.pc + 2
    | some (.skipNeqReg x y) => if s.reg x = s.reg y then s.pc + 2 else s.pc + 4
    | some _ => s.pc + 2

/-- If a tick of a running core ends with the latch set, then: StackUnderflow only for Return on an empty stack;
UnimplementedOpcode only for the twelve tags without semantics, with the decoded value and the fetched word;
OutOfBounds(Fetch) only with pc 4095 or more; OutOfBounds(Sprite) only for a Draw with I + N > 4096; never
OutOfBounds(Load); RenderFailure only for Clear or Draw whose request was answered fail. (What a record holds is D13
and D22 of the spec, log 20 and 21; that Clear asks for ClearOutput and that the answer is a free input is D16, log
10; the bounds 4095 and I + N > 4096 are D15 and D11, log 17 and 15; the latch is D12, log 1.) [60_exceptions.md
R240, 60_exceptions.md R243, 60_exceptions.md R244, 60_exceptions.md R246, 60_exceptions.md R247,
92_eei_decisions.md D11, 92_eei_decisions.md D12, 92_eei_decisions.md D13, 92_eei_decisions.md D15,
92_eei_decisions.md D16, 92_eei_decisions.md D22] -/
def Obligations.FaultIsLatchedOnlyForItsCause : Prop :=
  ∀ (s t : State) (f : FaultRecord), s.halt = none → step s = .next t → t.halt = some f →
  match f with
  | .stackUnderflow => s.fetched = some .ret ∧ s.stack = []
  | .unimplementedOpcode iv w => s.fetch = some w ∧ iv = decodeWord w ∧
      iv.tag ∈ [Tag.skipKeyPressed, .skipKeyNotPressed, .getDelay, .waitKey, .setDelay, .setSound, .addIndex,
        .setIndexFont, .storeBcd, .dumpRegs, .loadRegs, .unknown]
  | .outOfBounds (.fetch a) => a = s.pc ∧ 4095 ≤ s.pc.toNat
  | .outOfBounds (.sprite a n) => a = s.index ∧ 4096 < s.index.toNat + n.toNat ∧ ∃ x y, s.fetched = some (.draw x y n)
  | .outOfBounds (.load _) => False
  | .renderFailure q => s.inputs.nextAnswer = .fail ∧
      ((s.fetched = some .clear ∧ q = .clearOutput) ∨ ∃ x y n, s.fetched = some (.draw x y n) ∧ q = .paint t.fb)

/-- Clear answers a next state in which all pixels are false, ClearOutput is appended to the output history, one answer
is consumed, the latch is set to RenderFailure exactly if that answer is fail, and nothing else changes. (The
request and the free answer are D16 of the spec, log 10.) [41_fixed.md R140, 60_exceptions.md R246,
92_eei_decisions.md D16] -/
def Obligations.ClearBlanksScreenAndRequestsErase : Prop :=
  ∀ s : State, ∃ t, exec .clear s = .next t ∧
  (∀ r c, t.fb.pixel r c = false) ∧ t.history = s.history ++ [.clearOutput] ∧ t.inputs = s.inputs.afterAnswer ∧
  t.halt = (if s.inputs.nextAnswer = .fail then some (.renderFailure .clearOutput) else s.halt) ∧
  OnlyChanges [] [.fb, .history, .inputs, .halt] s t

/-- On a stack with top v Return answers a next state with pc = v and the stack without v, nothing else changed; on the
empty stack one with the latch set to StackUnderflow and nothing else changed. (The latch is D12 of the spec, log
1.) [41_fixed.md R141, 60_exceptions.md R241, 92_eei_decisions.md D12] -/
def Obligations.ReturnPopsOrUnderflows : Prop :=
  (∀ (s : State) (v : Word) (rest : List Word), s.stack = v :: rest →
    ∃ t, exec .ret s = .next t ∧ t.pc = v ∧ t.stack = rest ∧ OnlyChanges [] [.pc, .stack] s t) ∧
  (∀ s : State, s.stack = [] →
    ∃ t, exec .ret s = .next t ∧ t.halt = some .stackUnderflow ∧ OnlyChanges [] [.halt] s t)

/-- AbsJump(NNN) answers a next state whose pc is NNN zero-extended, for every NNN, odd or 0xFFF included, and nothing
else changes. [R150] -/
def Obligations.AbsJumpSetsPc : Prop :=
  ∀ (nnn : Addr12) (s : State), ∃ t, exec (.absJump nnn) s = .next t ∧
  t.pc.toNat = nnn.toNat ∧ OnlyChanges [] [.pc] s t

/-- Call(NNN) answers a next state with the program counter it ran with (its own address plus 2) on top of the stack and
pc equal to NNN zero-extended; nothing else changes, and no depth of the stack stops it. (The unbounded stack is D8
of the spec, the model following its choice, log 12.) [42_address.md R151, 10_state.md R32, 92_eei_decisions.md D8] -/
def Obligations.CallPushesReturnAddressAndJumps : Prop :=
  ∀ (nnn : Addr12) (s : State), ∃ t, exec (.call nnn) s = .next t ∧
  t.stack = s.pc :: s.stack ∧ t.pc.toNat = nnn.toNat ∧ OnlyChanges [] [.pc, .stack] s t

/-- SetIndex(NNN) answers a next state with I equal to NNN zero-extended and nothing else changed. [R152] -/
def Obligations.SetIndexWritesIndex : Prop :=
  ∀ (nnn : Addr12) (s : State), ∃ t, exec (.setIndex nnn) s = .next t ∧
  t.index.toNat = nnn.toNat ∧ OnlyChanges [] [.index] s t

/-- OffsetJump(NNN) answers a next state with pc = NNN + x[0] as numbers, up to 0x10FE, always register 0, and nothing
else changed. (No reduction: D21 of the spec, log 18.) [42_address.md R153, 92_eei_decisions.md D21] -/
def Obligations.OffsetJumpAddsRegisterZero : Prop :=
  ∀ (nnn : Addr12) (s : State), ∃ t, exec (.offsetJump nnn) s = .next t ∧
  t.pc.toNat = nnn.toNat + (s.reg 0).toNat ∧ OnlyChanges [] [.pc] s t

/-- SkipEqVal(X, KK) adds 2 to pc if x[X] = KK and leaves it if not, SkipNeqVal(X, KK) the other way round, so exactly
one of the two skips; nothing else changes. [R160, R161] -/
def Obligations.ImmediateSkipsMovePcOnlyOnTheirCondition : Prop :=
  ∀ (x : Reg) (kk : Byte) (s : State),
  (∃ t, exec (.skipEqVal x kk) s = .next t ∧ t.pc = (if s.reg x = kk then s.pc + 2 else s.pc) ∧
    OnlyChanges [] [.pc] s t) ∧
  (∃ t, exec (.skipNeqVal x kk) s = .next t ∧ t.pc = (if s.reg x = kk then s.pc else s.pc + 2) ∧
    OnlyChanges [] [.pc] s t)

/-- SkipEqReg(X, Y) adds 2 to pc if x[X] = x[Y] and leaves it if not, SkipNeqReg(X, Y) the other way round; nothing else
changes; with X = Y the first always skips and the second never. [R170, R171] -/
def Obligations.RegisterSkipsMovePcOnlyOnTheirCondition : Prop :=
  ∀ (x y : Reg) (s : State),
  (∃ t, exec (.skipEqReg x y) s = .next t ∧ t.pc = (if s.reg x = s.reg y then s.pc + 2 else s.pc) ∧
    OnlyChanges [] [.pc] s t) ∧
  (∃ t, exec (.skipNeqReg x y) s = .next t ∧ t.pc = (if s.reg x = s.reg y then s.pc else s.pc + 2) ∧
    OnlyChanges [] [.pc] s t)

/-- SetVal(X, KK) answers a next state with x[X] = KK and nothing else changed, for every X, 15 included. [R162] -/
def Obligations.SetValWritesImmediate : Prop :=
  ∀ (x : Reg) (kk : Byte) (s : State), ∃ t, exec (.setVal x kk) s = .next t ∧
  t.reg x = kk ∧ OnlyChanges [x] [] s t

/-- AddVal(X, KK) answers a next state with x[X] = (x[X] + KK) mod 256 and nothing else changed: x[15] keeps its value
unless X = 15, when it is the plain destination. [R163] -/
def Obligations.AddValWrapsWithoutFlag : Prop :=
  ∀ (x : Reg) (kk : Byte) (s : State), ∃ t, exec (.addVal x kk) s = .next t ∧
  (t.reg x).toNat = ((s.reg x).toNat + kk.toNat) % 256 ∧ OnlyChanges [x] [] s t

/-- Rand(X, KK) answers a next state with x[X] = (the drawn byte) AND KK, whatever the draw, one draw consumed and
nothing else changed; and for every value with no bit outside KK there is a draw that gives it. (The draw is a free
input: D17 of the spec, log 9.) [43_reg_imm.md R164, 10_state.md R43, 92_eei_decisions.md D17] -/
def Obligations.RandMasksAFreeByte : Prop :=
  (∀ (x : Reg) (kk : Byte) (s : State), ∃ t, exec (.rand x kk) s = .next t ∧
    t.reg x = s.inputs.nextRand &&& kk ∧ t.inputs = s.inputs.afterRand ∧ OnlyChanges [x] [.inputs] s t) ∧
  (∀ (x : Reg) (kk v : Byte) (s : State), v &&& ~~~kk = 0 →
    ∃ r t, exec (.rand x kk) (s.offer r .ok) = .next t ∧ t.reg x = v)

/-- Mov, Or, And and Xor of X and Y answer a next state with x[X] = x[Y], x[X] or x[Y], x[X] and x[Y], x[X] exclusive-or
x[Y] (bit by bit), and nothing else changed: x[15] only if X = 15. [R180, R181, R182, R183] -/
def Obligations.MoveAndLogicWriteOnlyTheirDestination : Prop :=
  ∀ (x y : Reg) (s : State),
  (∃ t, exec (.mov x y) s = .next t ∧ t.reg x = s.reg y ∧ OnlyChanges [x] [] s t) ∧
  (∃ t, exec (.or x y) s = .next t ∧
    (∀ b, (t.reg x).getLsbD b = ((s.reg x).getLsbD b || (s.reg y).getLsbD b)) ∧ OnlyChanges [x] [] s t) ∧
  (∃ t, exec (.and x y) s = .next t ∧
    (∀ b, (t.reg x).getLsbD b = ((s.reg x).getLsbD b && (s.reg y).getLsbD b)) ∧ OnlyChanges [x] [] s t) ∧
  (∃ t, exec (.xor x y) s = .next t ∧
    (∀ b, (t.reg x).getLsbD b = ((s.reg x).getLsbD b != (s.reg y).getLsbD b)) ∧ OnlyChanges [x] [] s t)

/-- Add(X, Y) answers a next state with x[15] = 1 if the two old values add to more than 255, else 0, and, for X other
than 15, x[X] = their sum mod 256; nothing else changes. (With X = 15 the carry is what remains: D9 of the spec, log
13.) [45_alu.md R184, 45_alu.md R190, 92_eei_decisions.md D9] -/
def Obligations.AddWritesSumThenCarry : Prop :=
  ∀ (x y : Reg) (s : State), ∃ t, exec (.add x y) s = .next t ∧
  (x ≠ 15 → (t.reg x).toNat = ((s.reg x).toNat + (s.reg y).toNat) % 256) ∧
  t.reg 15 = (if (s.reg x).toNat + (s.reg y).toNat > 255 then 1 else 0) ∧ OnlyChanges [x, 15] [] s t

/-- Sub(X, Y) answers a next state with x[15] = 1 if the old x[X] is less than the old x[Y], else 0, and, for X other
than 15, x[X] = x[X] - x[Y] mod 256; nothing else changes. (With X = 15 the borrow is what remains: D9 of the spec,
log 13.) [45_alu.md R185, 45_alu.md R190, 92_eei_decisions.md D9] -/
def Obligations.SubWritesDifferenceThenBorrow : Prop :=
  ∀ (x y : Reg) (s : State), ∃ t, exec (.sub x y) s = .next t ∧
  (x ≠ 15 → (t.reg x).toNat = ((s.reg x).toNat + 256 - (s.reg y).toNat) % 256) ∧
  t.reg 15 = (if (s.reg x).toNat < (s.reg y).toNat then 1 else 0) ∧ OnlyChanges [x, 15] [] s t

/-- SubN(X, Y) answers a next state with x[15] = 1 if the old x[Y] is less than the old x[X], else 0, and, for X other
than 15, x[X] = x[Y] - x[X] mod 256; nothing else changes. (With X = 15 the borrow is what remains: D9 of the spec,
log 13.) [45_alu.md R187, 45_alu.md R190, 92_eei_decisions.md D9] -/
def Obligations.SubNWritesDifferenceThenBorrow : Prop :=
  ∀ (x y : Reg) (s : State), ∃ t, exec (.subN x y) s = .next t ∧
  (x ≠ 15 → (t.reg x).toNat = ((s.reg y).toNat + 256 - (s.reg x).toNat) % 256) ∧
  t.reg 15 = (if (s.reg y).toNat < (s.reg x).toNat then 1 else 0) ∧ OnlyChanges [x, 15] [] s t

/-- Shr(X, Y) answers a next state in which, for X other than 15, x[X] = old x[Y] / 2 and x[15] = old x[Y] mod 2, and
for X = 15, whatever Y, x[15] = 0; nothing else changes. [R186] -/
def Obligations.ShrCopiesThenShifts : Prop :=
  ∀ (x y : Reg) (s : State), ∃ t, exec (.shr x y) s = .next t ∧
  (x ≠ 15 → (t.reg x).toNat = (s.reg y).toNat / 2 ∧ (t.reg 15).toNat = (s.reg y).toNat % 2) ∧
  (x = 15 → t.reg 15 = 0) ∧ OnlyChanges [x, 15] [] s t

/-- Shl(X, Y) answers a next state in which, for X other than 15, x[X] = (old x[Y] * 2) mod 256 and x[15] = 0x80 if bit
7 of the old x[Y] is set, else 0x00, and for X = 15, whatever Y, x[15] = 0; nothing else changes. [R188] -/
def Obligations.ShlCopiesThenShifts : Prop :=
  ∀ (x y : Reg) (s : State), ∃ t, exec (.shl x y) s = .next t ∧
  (x ≠ 15 → (t.reg x).toNat = (s.reg y).toNat * 2 % 256 ∧
    t.reg 15 = (if (s.reg y).getLsbD 7 = true then 0x80 else 0x00)) ∧
  (x = 15 → t.reg 15 = 0) ∧ OnlyChanges [x, 15] [] s t

/-- For every grid, every sprite and every start row and column, the loops of the blitter give the grid in which each
pixel is the old pixel XOR the sprite bit on it (most significant bit leftmost, row by row; bits past column 63 or
row 31 change nothing), and a collision bit that is set exactly if some old lit pixel lies under an undropped 1 bit.
[R203, R205, R206] -/
def Obligations.BlitXorsClipsAndReportsCollision : Prop :=
  ∀ (fb : Framebuffer) (rows : List Byte) (sx sy : Nat),
  (∀ r c, r < 32 → c < 64 →
    (blit fb sx sy rows).grid.pixel r c = (fb.pixel r c != spriteBit rows sx sy r c)) ∧
  ((blit fb sx sy rows).collision = true ↔ Collides fb rows sx sy)

/-- If I + N is at most 4096, Draw(X, Y, N) answers a next state in which each pixel is the old one XOR the sprite bit
of the N bytes at I placed at column old x[X] mod 64, row old x[Y] mod 32, x[15] is 1 if a lit pixel was under a 1
bit and 0 if not, one Paint of the new grid is appended to the history, and the latch is set to RenderFailure
exactly if its answer is fail; nothing else changes. (Coordinates before the flag reset: D10, log 14; the one check
over all rows: D11, log 15; the free answer: D16, log 10.) [46_draw.md R201, 46_draw.md R202, 46_draw.md R204,
46_draw.md R207, 60_exceptions.md R246, 92_eei_decisions.md D10, 92_eei_decisions.md D11] -/
def Obligations.DrawCompositesCollidesAndPaints : Prop :=
  ∀ (x y : Reg) (n : Nibble) (s : State), s.index.toNat + n.toNat ≤ 4096 →
  let rows := (List.range n.toNat).map fun k => s.mem.peek (s.index.toNat + k)
  let sx := (s.reg x).toNat % 64
  let sy := (s.reg y).toNat % 32
  ∃ t, exec (.draw x y n) s = .next t ∧
    (∀ r c, r < 32 → c < 64 → t.fb.pixel r c = (s.fb.pixel r c != spriteBit rows sx sy r c)) ∧
    (Collides s.fb rows sx sy → t.reg 15 = 1) ∧ (¬ Collides s.fb rows sx sy → t.reg 15 = 0) ∧
    t.history = s.history ++ [.paint t.fb] ∧ t.inputs = s.inputs.afterAnswer ∧
    t.halt = (if s.inputs.nextAnswer = .fail then some (.renderFailure (.paint t.fb)) else s.halt) ∧
    OnlyChanges [15] [.fb, .history, .inputs, .halt] s t

/-- If I + N exceeds 4096, Draw(X, Y, N) answers a next state with the latch set to OutOfBounds(Sprite, I, N) and
nothing else changed, whether or not the rows past memory would have been clipped. (D11 of the spec, log 15.)
[46_draw.md R202, 60_exceptions.md R244, 92_eei_decisions.md D11] -/
def Obligations.DrawPastMemoryFaultsBeforeAnyWrite : Prop :=
  ∀ (x y : Reg) (n : Nibble) (s : State), 4096 < s.index.toNat + n.toNat →
  ∃ t, exec (.draw x y n) s = .next t ∧ t.halt = some (.outOfBounds (.sprite s.index n)) ∧ OnlyChanges [] [.halt] s t

/-- SkipKeyPressed, SkipKeyNotPressed, GetDelay, WaitKey, SetDelay, SetSound, AddIndex, SetIndexFont, StoreBcd,
DumpRegs, LoadRegs and Unknown each answer, from every state, a next state with the latch set to UnimplementedOpcode
of that instruction value and its word, and no register, timer, I, memory byte, pixel, stack entry or anything else
changed. (The record holds the word too: D22 of the spec, log 20.) [47_unimplemented.md R220, 60_exceptions.md R242,
92_eei_decisions.md D22] -/
def Obligations.UnimplementedTagsLatchTheirFault : Prop :=
  ∀ (x : Reg) (w : Word) (s : State),
  ∀ i ∈ [Instr.skipKeyPressed x, .skipKeyNotPressed x, .getDelay x, .waitKey x, .setDelay x, .setSound x, .addIndex x,
      .setIndexFont x, .storeBcd x, .dumpRegs x, .loadRegs x, .unknown w],
    ∃ t, exec i s = .next t ∧ t.halt = some (.unimplementedOpcode i (encode i)) ∧ OnlyChanges [] [.halt] s t

/-- If a Call ran on a state and a later state has the stack the Call left, a Return there answers a next state whose pc
is the program counter the Call ran with (its address plus 2) and whose stack is the one before the Call.
[41_fixed.md R141, 95_test_vectors.md part 1 item 7] -/
def Obligations.CallThenReturnResumesAfterTheCall : Prop :=
  ∀ (nnn : Addr12) (s t u : State), exec (.call nnn) s = .next t → u.stack = t.stack →
  ∃ v, exec .ret u = .next v ∧ v.pc = s.pc ∧ v.stack = s.stack

/-- Whatever the state, every step leaves the memory exactly as it was. [10_state.md R47, 20_memory.md R62] -/
def Obligations.NoStepWritesMemory : Prop :=
  ∀ s t : State, step s = .next t → t.mem = s.mem

/-- After every step the framebuffer is unchanged, or the instruction was Clear and all of it is false, or the
instruction was a Draw and every pixel is the old pixel XOR the sprite bit on it. (That the coordinates are those of
the registers before the tick, X or Y = 15 included, is D10 of the spec, log 14; that a Draw past memory leaves the
framebuffer whole is D11, log 15.) [10_state.md R37, 41_fixed.md R140, 46_draw.md R201, 46_draw.md R202, 46_draw.md
R204, 92_eei_decisions.md D10, 92_eei_decisions.md D11] -/
def Obligations.OnlyClearAndDrawWriteTheScreen : Prop :=
  ∀ s t : State, step s = .next t →
  t.fb = s.fb ∨ (s.fetched = some .clear ∧ ∀ r c, t.fb.pixel r c = false) ∨
  ∃ x y n, s.fetched = some (.draw x y n) ∧ ∀ r c, r < 32 → c < 64 →
    t.fb.pixel r c = (s.fb.pixel r c != spriteBit (spriteRows s n) (startColumn s x) (startRow s y) r c)

/-- After every step I is unchanged, or the instruction was a SetIndex and I is its operand zero-extended. [10_state.md
R31] -/
def Obligations.OnlySetIndexWritesIndex : Prop :=
  ∀ s t : State, step s = .next t →
  t.index = s.index ∨ ∃ nnn, s.fetched = some (.setIndex nnn) ∧ t.index = zext16 nnn

/-- After every step the stack is unchanged, or the instruction was a Call and the fetch address plus 2 was pushed, or
it was a Return and the top was popped into pc. [10_state.md R32, 10_state.md R33] -/
def Obligations.OnlyCallAndReturnMoveTheStack : Prop :=
  ∀ s t : State, step s = .next t →
  t.stack = s.stack ∨ (∃ nnn, s.fetched = some (.call nnn) ∧ t.stack = (s.pc + 2) :: s.stack) ∨
  (s.fetched = some .ret ∧ s.stack = t.pc :: t.stack)

/-- Whatever the state, every step leaves the delay timer and the sound timer exactly as they were. [10_state.md R34,
60_exceptions.md R254] -/
def Obligations.TimersNeverChange : Prop :=
  ∀ s t : State, step s = .next t → t.dt = s.dt ∧ t.st = s.st

/-- For every instruction and state: a register R22 does not list as written keeps its value; and if a register R22 does
not list as read is given any other value first, the instruction answers the same state but for that register, which
either was written with the same value in both runs or was left alone in both. [10_state.md R22, 10_state.md R24] -/
def Obligations.RegistersReadAndWrittenAsListed : Prop :=
  (∀ (i : Instr) (s t : State) (r : Reg), exec i s = .next t → r ∉ writtenRegs i → t.reg r = s.reg r) ∧
  (∀ (i : Instr) (s : State) (r : Reg) (v : Byte), r ∉ readRegs i →
    ∃ t t', exec i s = .next t ∧ exec i (s.setReg r v) = .next t' ∧ OnlyChanges [r] [] t t' ∧
      (t'.reg r = t.reg r ∨ (t.reg r = s.reg r ∧ t'.reg r = v)))

/-- After every step the output history is unchanged, or the instruction was Clear and ClearOutput was appended, or it
was a Draw and a Paint of the grid it left was appended. (D16 of the spec, log 10 and 11.) [10_state.md R44,
10_state.md R45, 92_eei_decisions.md D16] -/
def Obligations.HistoryGrowsByAtMostOneRequest : Prop :=
  ∀ s t : State, step s = .next t →
  t.history = s.history ∨ (s.fetched = some .clear ∧ t.history = s.history ++ [.clearOutput]) ∨
  ∃ x y n, s.fetched = some (.draw x y n) ∧ t.history = s.history ++ [.paint t.fb]

/-- If a state has a canonical memory (log 4), I at most 0xFFF, pc at most 0x10FE, both timers 0 and every stack entry
between 2 and 4096, then so has the state after a step. (R47 (a) and (f) speak of a tick and not of a state:
NoStepWritesMemory and HaltedCoreNeverChanges state them. The bound on pc rests on D15 and D21 of the spec, log 17
and 18.) [10_state.md R47, 10_state.md R29, 10_state.md R31, 10_state.md R34, 92_eei_decisions.md D15,
92_eei_decisions.md D21] -/
def Obligations.InvariantKeptByEveryStep : Prop :=
  ∀ s t : State, s.Inv → step s = .next t → t.Inv

/-- The state after reset has a canonical memory (log 4), I at most 0xFFF, pc at most 0x10FE, both timers 0 (D5 of the
spec, log 3) and no stack entry out of range. [10_state.md R46, 10_state.md R47, 92_eei_decisions.md D5] -/
def Obligations.InvariantHoldsAtReset : Prop :=
  State.reset.Inv

/-- After reset pc is 0x200, I is 0, the stack is empty, every pixel is false, the latch is none, the history is empty;
every general register and both timers are 0 (D4 and D5 of the spec, log 2 and 3); memory reads the 80 bytes of the
font at 0x050 to 0x09F (D7, PRESUMED, log 5) and 0 elsewhere (D6, log 4). [10_state.md R46, 70_reset_and_hazards.md
R280, 92_eei_decisions.md D4, 92_eei_decisions.md D5, 92_eei_decisions.md D6, 92_eei_decisions.md D7] -/
def Obligations.ResetStateAsListed : Prop :=
  State.reset.pc = 0x200 ∧ State.reset.index = 0 ∧ State.reset.stack = [] ∧
  (∀ r c, State.reset.fb.pixel r c = false) ∧ State.reset.halt = none ∧ State.reset.history = [] ∧
  (∀ r, State.reset.reg r = 0) ∧ State.reset.dt = 0 ∧ State.reset.st = 0 ∧ font.length = 80 ∧
  (∀ a, State.reset.mem.peek a = if 0x050 ≤ a ∧ a ≤ 0x09F then font.getD (a - 0x050) 0 else 0)

/-- For every canonical memory and every image of at most 3584 bytes, byte k of the image is what 0x200 + k reads after
load, every other address reads as before, the memory stays canonical, and nothing but memory changes.
[70_reset_and_hazards.md R286, 20_memory.md R68, 92_eei_decisions.md D19] -/
def Obligations.LoadCopiesImageVerbatim : Prop :=
  ∀ (s : State) (bytes : List Byte), s.mem.wf = true → bytes.length ≤ 3584 →
  (∀ k, k < bytes.length → (s.load bytes).mem.peek (0x200 + k) = bytes.getD k 0) ∧
  (∀ a, a < 0x200 ∨ 0x200 + bytes.length ≤ a → (s.load bytes).mem.peek a = s.mem.peek a) ∧
  (s.load bytes).mem.wf = true ∧ OnlyChanges [] [.mem] s (s.load bytes)

/-- For every image longer than 3584 bytes, load sets the latch to OutOfBounds(Load, length) and changes nothing else.
(D19 of the spec, log 19.) [70_reset_and_hazards.md R287, 60_exceptions.md R245, 92_eei_decisions.md D19] -/
def Obligations.OverlongLoadFaultsWithoutWriting : Prop :=
  ∀ (s : State) (bytes : List Byte), 3584 < bytes.length →
  (s.load bytes).halt = some (.outOfBounds (.load bytes.length)) ∧ OnlyChanges [] [.halt] s (s.load bytes)

/-- No transaction ends in a fault; a transaction is refused exactly if it is a load in a session that has already
loaded or ticked since reset, and then with loadOutOfPhase; a load in a fresh session answers, for every state and
every image, the session whose core is load of the image on that state and whose phase is loaded, so that a second
load is refused; reset answers, from every session, the reset state in the phase fresh. (The one load is D19 of the
spec, and the phase is held in the session, outside the state: log 19; the three transactions are D20, log 22. What
load does to the state: LoadCopiesImageVerbatim, OverlongLoadFaultsWithoutWriting.) [70_reset_and_hazards.md R280,
70_reset_and_hazards.md R286, 70_reset_and_hazards.md R288, 10_state.md R42, 92_eei_decisions.md D19,
92_eei_decisions.md D20] -/
def Obligations.TransactionsRefuseOnlyALateLoad : Prop :=
  (∀ (x : Transaction) (p : Session), (∃ q, transact x p = .next q) ∨
    (transact x p = .refused .loadOutOfPhase ∧ p.phase ≠ .fresh ∧ ∃ bytes, x = .load bytes)) ∧
  (∀ (p : Session) (bytes : List Byte), p.phase ≠ .fresh → transact (.load bytes) p = .refused .loadOutOfPhase) ∧
  (∀ (s : State) (bytes : List Byte), transact (.load bytes) ⟨s, .fresh⟩ = .next ⟨s.load bytes, .loaded⟩) ∧
  (∀ p : Session, transact .reset p = .next ⟨State.reset, .fresh⟩)

/-- The canonical form is one: two memories in canonical form in which every address reads the same byte are the same
list. (The sparse list is the model's representation, log 4.) [20_memory.md R60, 20_memory.md R61] -/
def Obligations.MemoryIsDeterminedByItsBytes : Prop :=
  ∀ m m' : Memory, m.wf = true → m'.wf = true → (∀ a, m.peek a = m'.peek a) → m = m'

/-- For X and Y other than 15 and I + N at most 4096, running the same Draw twice gives back the framebuffer of before;
the second leaves x[15] = 1 exactly if some undropped 1 bit of the sprite lies over a pixel that was unlit before
the first, as R206 has it (R208 (b) says "at least one undropped 1 bit", which R206 contradicts for a pixel lit
before: log 23), else 0. [46_draw.md R208, 46_draw.md R206] -/
def Obligations.DrawTwiceRestoresTheScreen : Prop :=
  ∀ (x y : Reg) (n : Nibble) (s t u : State), x ≠ 15 → y ≠ 15 → s.index.toNat + n.toNat ≤ 4096 →
  exec (.draw x y n) s = .next t → exec (.draw x y n) t = .next u →
  u.fb = s.fb ∧ (u.reg 15 = 0 ∨ u.reg 15 = 1) ∧
  (u.reg 15 = 1 ↔ ∃ r c, r < 32 ∧ c < 64 ∧ s.fb.pixel r c = false ∧
    spriteBit (spriteRows s n) (startColumn s x) (startRow s y) r c = true)

/-- If every pixel is false and I + N is at most 4096, a Draw leaves x[15] = 0 and a grid in which a pixel is lit
exactly if a 1 bit of the sprite falls on it. (The sprite stands at the coordinates the registers held before the
Draw, X or Y = 15 included: D10 of the spec, log 14.) [46_draw.md R208, 46_draw.md R206, 46_draw.md R204,
92_eei_decisions.md D10] -/
def Obligations.BlankScreenNeverCollides : Prop :=
  ∀ (x y : Reg) (n : Nibble) (s t : State), s.fb = Framebuffer.blank → s.index.toNat + n.toNat ≤ 4096 →
  exec (.draw x y n) s = .next t → t.reg 15 = 0 ∧
  ∀ r c, r < 32 → c < 64 →
    t.fb.pixel r c = spriteBit (spriteRows s n) (startColumn s x) (startRow s y) r c

/-- For every state, byte and answer: the step on the state whose pending random bytes are that byte alone and whose
pending answers are that answer alone answers a next state u; tick answers u with no input pending; and the tick
transaction of a session answers that core state in the phase ticked. (That the inputs stand in the state is the
model's own, log 9, 10 and 22.) [10_state.md R42, 10_state.md R43, 40_tick_cycle.md R130, 92_eei_decisions.md D20] -/
def Obligations.TickIsOneStepOnItsTwoInputs : Prop :=
  ∀ (rand : Byte) (answer : RenderResult) (s : State),
  ∃ u, step { s with inputs := { s.inputs with rands := [rand], answers := [answer] } } = .next u ∧
    tick rand answer s = .next { u with inputs := { u.inputs with rands := [], answers := [] } } ∧
    ∀ phase, transact (.tick rand answer) ⟨s, phase⟩ =
      .next ⟨{ u with inputs := { u.inputs with rands := [], answers := [] } }, .ticked⟩

/-- For every running state, byte and answer tick(rand, answer) answers a next state t, where: if Rand(X, KK) is
fetched, t has x[X] = rand AND KK; if Clear is fetched, the latch of t is RenderFailure(ClearOutput) if answer is
fail and none if it is ok; if a Draw with I + N at most 4096 is fetched, the latch of t is RenderFailure(Paint of
the grid of t) if answer is fail and none if it is ok. (The free inputs are D16 and D17 of the spec, log 10 and 9;
the bound of Draw is D11, log 15.) [10_state.md R42, 10_state.md R43, 10_state.md R44, 40_tick_cycle.md R130,
43_reg_imm.md R164, 60_exceptions.md R246, 92_eei_decisions.md D16, 92_eei_decisions.md D17] -/
def Obligations.TickRunsItsInstructionOnItsTwoInputs : Prop :=
  ∀ (rand : Byte) (answer : RenderResult) (s : State), s.halt = none →
  ∃ t, tick rand answer s = .next t ∧
    (∀ x kk, s.fetched = some (.rand x kk) → t.reg x = rand &&& kk) ∧
    (s.fetched = some .clear →
      t.halt = if answer = .fail then some (.renderFailure .clearOutput) else none) ∧
    (∀ x y n, s.fetched = some (.draw x y n) → s.index.toNat + n.toNat ≤ 4096 →
      t.halt = if answer = .fail then some (.renderFailure (.paint t.fb)) else none)

/-- For every state and any two pairs of inputs, the two ticks answer next states t and t' that are equal, but for: x[X]
where a running core fetches Rand(X, KK), and there t = t' if the two bytes are equal; and the latch where a running
core fetches Clear or a Draw with I + N at most 4096, and there t = t' if the two answers are equal. (The free
inputs are D16 and D17 of the spec, log 10 and 9; the bound of Draw is D11, log 15; a halted core ignores both, D12,
log 1.) [10_state.md R43, 10_state.md R44, 40_tick_cycle.md R134, 92_eei_decisions.md D16, 92_eei_decisions.md D17] -/
def Obligations.TickInputsReachNothingElse : Prop :=
  ∀ (rand rand' : Byte) (answer answer' : RenderResult) (s : State),
  ∃ t t', tick rand answer s = .next t ∧ tick rand' answer' s = .next t' ∧
    (t = t' ∨
      (s.halt = none ∧ rand ≠ rand' ∧ ∃ x kk, s.fetched = some (.rand x kk) ∧ OnlyChanges [x] [] t t') ∨
      (s.halt = none ∧ answer ≠ answer' ∧ OnlyChanges [] [.halt] t t' ∧ (s.fetched = some .clear ∨
        ∃ x y n, s.fetched = some (.draw x y n) ∧ s.index.toNat + n.toNat ≤ 4096)))
end

