-- ==== Sys2Proof/Laws/Memory.lean ====
section
/-! SUPPORT. The laws of the memory: read after write, and that every memory operation keeps the canonical form. -/

namespace Sys2Proof.Machine

/-- Past the font and past memory an unlisted address reads 0. -/
theorem initByte_of_ge {a : Nat} (h : 0x0A0 ≤ a) : initByte a = 0 := by
  have hlen : font.length = 80 := by decide
  have h1 : ¬ a < Config.fontBase := by simp only [Config.fontBase]; omega
  rw [initByte, if_neg h1, List.getD_eq_getElem?_getD, List.getElem?_eq_none (by rw [hlen]; simp only [Config.fontBase]; omega)]
  rfl

/-- What the canonical form says of a listed entry and the entries after it. -/
theorem Memory.wfFrom_cons {lo k : Nat} {v : Byte} {rest : Memory} :
    Memory.wfFrom lo ((k, v) :: rest) = true ↔
      lo ≤ k ∧ k < 4096 ∧ v ≠ initByte k ∧ Memory.wfFrom (k + 1) rest = true := by
  simp [Memory.wfFrom, Config.memSize, and_assoc]

theorem Memory.wfFrom_mono {m : Memory} {lo lo' : Nat} (hle : lo' ≤ lo) (h : Memory.wfFrom lo m = true) :
    Memory.wfFrom lo' m = true := by
  cases m with
  | nil => rfl
  | cons e rest =>
    obtain ⟨k, v⟩ := e
    rw [Memory.wfFrom_cons] at h ⊢
    exact ⟨hle.trans h.1, h.2⟩

/-- Below its first possible address a canonical memory reads its reset contents. -/
theorem Memory.peek_of_lt {m : Memory} {lo a : Nat} (h : Memory.wfFrom lo m = true) (ha : a < lo) :
    m.peek a = initByte a := by
  induction m generalizing lo with
  | nil => rfl
  | cons e rest ih =>
    obtain ⟨k, v⟩ := e
    rw [Memory.wfFrom_cons] at h
    rw [Memory.peek, if_neg (by omega), ih h.2.2.2 (by omega)]

/-- A write leaves every other address alone. -/
theorem Memory.peek_insert_ne {m : Memory} {a b : Nat} (v : Byte) (h : b ≠ a) :
    (m.insert a v).peek b = m.peek b := by
  induction m with
  | nil => by_cases hv : v = initByte a <;> simp [Memory.insert, Memory.peek, hv, h]
  | cons e rest ih =>
    obtain ⟨k, w⟩ := e
    simp only [Memory.insert]
    split
    · split <;> simp [Memory.peek, h]
    · split
      · next hk => subst hk; split <;> simp [Memory.peek, h]
      · simp [Memory.peek, ih]

/-- A write to a canonical memory is what the address then reads. -/
theorem Memory.peek_insert_self {m : Memory} {lo a : Nat} (v : Byte) (hw : Memory.wfFrom lo m = true) :
    (m.insert a v).peek a = v := by
  induction m generalizing lo with
  | nil => by_cases hv : v = initByte a <;> simp [Memory.insert, Memory.peek, hv]
  | cons e rest ih =>
    obtain ⟨k, w⟩ := e
    rw [Memory.wfFrom_cons] at hw
    simp only [Memory.insert]
    split
    · next hlt =>
      split
      · next hv => rw [Memory.peek, if_neg (by omega), Memory.peek_of_lt hw.2.2.2 (by omega), hv]
      · simp [Memory.peek]
    · split
      · next hk =>
        subst hk
        split
        · next hv => rw [Memory.peek_of_lt hw.2.2.2 (by omega), hv]
        · simp [Memory.peek]
      · next hk => rw [Memory.peek, if_neg hk, ih hw.2.2.2]

/-- Read after write, in one line. -/
theorem Memory.peek_insert {m : Memory} (hw : m.wf = true) (a b : Nat) (v : Byte) :
    (m.insert a v).peek b = if b = a then v else m.peek b := by
  split
  · next h => rw [h, Memory.peek_insert_self v hw]
  · next h => exact Memory.peek_insert_ne v h

theorem Memory.wfFrom_insert {m : Memory} {lo a : Nat} (v : Byte) (hw : Memory.wfFrom lo m = true)
    (hlo : lo ≤ a) (ha : a < 4096) : Memory.wfFrom lo (m.insert a v) = true := by
  induction m generalizing lo with
  | nil =>
    by_cases hv : v = initByte a
    · simp [Memory.insert, hv, Memory.wfFrom]
    · simp only [Memory.insert, hv, if_false]
      exact Memory.wfFrom_cons.mpr ⟨hlo, ha, hv, rfl⟩
  | cons e rest ih =>
    obtain ⟨k, w⟩ := e
    have hw' := Memory.wfFrom_cons.mp hw
    simp only [Memory.insert]
    split
    · next hlt =>
      split
      · exact hw
      · next hv =>
        exact Memory.wfFrom_cons.mpr ⟨hlo, ha, hv, Memory.wfFrom_cons.mpr ⟨by omega, hw'.2⟩⟩
    · split
      · next hk =>
        subst hk
        split
        · exact Memory.wfFrom_mono (by omega) hw'.2.2.2
        · next hv => exact Memory.wfFrom_cons.mpr ⟨hlo, ha, hv, hw'.2.2.2⟩
      · exact Memory.wfFrom_cons.mpr
          ⟨hw'.1, hw'.2.1, hw'.2.2.1, ih hw'.2.2.2 (by omega)⟩

/-- A write inside memory keeps the canonical form. -/
theorem Memory.wf_insert {m : Memory} {a : Nat} (v : Byte) (hw : m.wf = true) (ha : a < 4096) :
    (m.insert a v).wf = true :=
  Memory.wfFrom_insert v hw (Nat.zero_le a) ha

/-- `MemWrite` keeps the canonical form. -/
theorem Memory.wf_writeByte {m m' : Memory} {a : Nat} {v : Byte} (hw : m.wf = true)
    (h : m.writeByte a v = some m') : m'.wf = true := by
  simp only [Memory.writeByte, Config.memSize] at h
  split at h
  · exact absurd h (by simp)
  · injection h with h
    exact h ▸ Memory.wf_insert v hw (by omega)

/-- The image loop keeps the canonical form. -/
theorem Memory.wf_writeBytes {m m' : Memory} {a : Nat} {bs : List Byte} (hw : m.wf = true)
    (h : m.writeBytes a bs = some m') : m'.wf = true := by
  induction bs generalizing m a with
  | nil => simp only [Memory.writeBytes, Option.some.injEq] at h; exact h ▸ hw
  | cons b rest ih =>
    simp only [Memory.writeBytes] at h
    split at h
    · exact absurd h (by simp)
    · next hb => exact ih (Memory.wf_writeByte hw hb) h

/-- The image loop succeeds where the whole range is inside memory. -/
theorem Memory.writeBytes_isSome {m : Memory} {a : Nat} {bs : List Byte} (h : a + bs.length ≤ 4096) :
    ∃ m', m.writeBytes a bs = some m' := by
  induction bs generalizing m a with
  | nil => exact ⟨m, rfl⟩
  | cons b rest ih =>
    simp only [List.length_cons] at h
    have hb : m.writeByte a b = some (m.insert a b) := by
      simp only [Memory.writeByte, Config.memSize]; rw [if_neg (by omega)]
    simp only [Memory.writeBytes, hb]
    exact ih (by omega)

/-- What the image loop leaves at an address: byte `b - a` of the image inside its range, the old byte outside. -/
theorem Memory.peek_writeBytes {m m' : Memory} {a : Nat} {bs : List Byte} (hw : m.wf = true)
    (h : m.writeBytes a bs = some m') (b : Nat) :
    m'.peek b = if a ≤ b ∧ b < a + bs.length then bs.getD (b - a) 0 else m.peek b := by
  induction bs generalizing m a with
  | nil =>
    simp only [Memory.writeBytes, Option.some.injEq] at h
    rw [if_neg (by simp only [List.length_nil]; omega), h]
  | cons v rest ih =>
    simp only [Memory.writeBytes] at h
    split at h
    · exact absurd h (by simp)
    · next m1 hb =>
      have hm1 : m1 = m.insert a v := by
        simp only [Memory.writeByte, Config.memSize] at hb
        split at hb
        · exact absurd hb (by simp)
        · exact (Option.some.inj hb).symm
      rw [ih (Memory.wf_writeByte hw hb) h, hm1, Memory.peek_insert hw]
      simp only [List.length_cons]
      by_cases h1 : b = a
      · subst h1; rw [if_neg (by omega)]; simp
      · by_cases h2 : a + 1 ≤ b ∧ b < a + 1 + rest.length
        · rw [if_pos h2, if_pos (by omega)]
          have : b - a = (b - (a + 1)) + 1 := by omega
          rw [this, List.getD_cons_succ]
        · rw [if_neg h2, if_neg h1, if_neg (by omega)]

/-- Every `MemRead` of two bytes inside memory is the bytes at the address, high byte first. -/
theorem Memory.readWord_eq_some {m : Memory} {a : Nat} (h : a + 2 ≤ 4096) :
    m.readWord a = some (wordOfBytes (m.peek a) (m.peek (a + 1))) := by
  simp only [Memory.readWord, Config.memSize]; rw [if_neg (by omega)]

theorem Memory.readWord_eq_none {m : Memory} {a : Nat} (h : 4096 < a + 2) : m.readWord a = none := by
  simp only [Memory.readWord, Config.memSize]; rw [if_pos (by omega)]

/-- The bytes of a range, by position. -/
theorem Memory.bytesFrom_length (m : Memory) (a n : Nat) : (m.bytesFrom a n).length = n := by
  induction n generalizing a with
  | zero => rfl
  | succ n ih => simp [Memory.bytesFrom, ih]

theorem Memory.bytesFrom_getElem? (m : Memory) (a n k : Nat) (h : k < n) :
    (m.bytesFrom a n)[k]? = some (m.peek (a + k)) := by
  induction n generalizing a k with
  | zero => omega
  | succ n ih =>
    cases k with
    | zero => simp [Memory.bytesFrom]
    | succ k =>
      rw [Memory.bytesFrom, List.getElem?_cons_succ, ih (a + 1) k (by omega)]
      congr 2; omega

/-- The reset memory lists nothing and is canonical. -/
theorem reset_mem_wf : State.reset.mem.wf = true := rfl

/-- `placeWord` keeps the canonical form. -/
theorem State.placeWord_mem_wf {s : State} (w : Word) (h : s.mem.wf = true) : (s.placeWord w).mem.wf = true := by
  simp only [State.placeWord, Config.memSize]
  split
  · exact Memory.wf_insert _ (Memory.wf_insert _ h (by decide)) (by decide)
  · next hp => exact Memory.wf_insert _ (Memory.wf_insert _ h (by omega)) (by omega)

/-- `load` keeps the canonical form. -/
theorem State.load_mem_wf {s : State} (bytes : List Byte) (h : s.mem.wf = true) : (s.load bytes).mem.wf = true := by
  simp only [State.load]
  split
  · exact h
  · split
    · exact h
    · next hm => exact Memory.wf_writeBytes h hm

end Sys2Proof.Machine
end

