-- ==== Sys2Proof/Laws/State.lean ====
section
/-! SUPPORT. One lemma per field per update of the state, true by rfl, so that no proof unfolds a record update; and the
two laws of the register file (read after write). -/

namespace Sys2Proof.Machine

/-! ### setReg -/

@[simp] theorem State.setReg_regs (s : State) (r : Reg) (v : Byte) : (s.setReg r v).regs = s.regs.set r.toNat v r.isLt := rfl
@[simp] theorem State.setReg_pc (s : State) (r : Reg) (v : Byte) : (s.setReg r v).pc = s.pc := rfl
@[simp] theorem State.setReg_index (s : State) (r : Reg) (v : Byte) : (s.setReg r v).index = s.index := rfl
@[simp] theorem State.setReg_stack (s : State) (r : Reg) (v : Byte) : (s.setReg r v).stack = s.stack := rfl
@[simp] theorem State.setReg_dt (s : State) (r : Reg) (v : Byte) : (s.setReg r v).dt = s.dt := rfl
@[simp] theorem State.setReg_st (s : State) (r : Reg) (v : Byte) : (s.setReg r v).st = s.st := rfl
@[simp] theorem State.setReg_fb (s : State) (r : Reg) (v : Byte) : (s.setReg r v).fb = s.fb := rfl
@[simp] theorem State.setReg_mem (s : State) (r : Reg) (v : Byte) : (s.setReg r v).mem = s.mem := rfl
@[simp] theorem State.setReg_halt (s : State) (r : Reg) (v : Byte) : (s.setReg r v).halt = s.halt := rfl
@[simp] theorem State.setReg_history (s : State) (r : Reg) (v : Byte) : (s.setReg r v).history = s.history := rfl
@[simp] theorem State.setReg_inputs (s : State) (r : Reg) (v : Byte) : (s.setReg r v).inputs = s.inputs := rfl

/-! ### setPc -/

@[simp] theorem State.setPc_regs (s : State) (v : Word) : (s.setPc v).regs = s.regs := rfl
@[simp] theorem State.setPc_pc (s : State) (v : Word) : (s.setPc v).pc = v := rfl
@[simp] theorem State.setPc_index (s : State) (v : Word) : (s.setPc v).index = s.index := rfl
@[simp] theorem State.setPc_stack (s : State) (v : Word) : (s.setPc v).stack = s.stack := rfl
@[simp] theorem State.setPc_dt (s : State) (v : Word) : (s.setPc v).dt = s.dt := rfl
@[simp] theorem State.setPc_st (s : State) (v : Word) : (s.setPc v).st = s.st := rfl
@[simp] theorem State.setPc_fb (s : State) (v : Word) : (s.setPc v).fb = s.fb := rfl
@[simp] theorem State.setPc_mem (s : State) (v : Word) : (s.setPc v).mem = s.mem := rfl
@[simp] theorem State.setPc_halt (s : State) (v : Word) : (s.setPc v).halt = s.halt := rfl
@[simp] theorem State.setPc_history (s : State) (v : Word) : (s.setPc v).history = s.history := rfl
@[simp] theorem State.setPc_inputs (s : State) (v : Word) : (s.setPc v).inputs = s.inputs := rfl
@[simp] theorem State.setPc_reg (s : State) (v : Word) (i : Reg) : (s.setPc v).reg i = s.reg i := rfl

/-! ### advancePc -/

@[simp] theorem State.advancePc_regs (s : State) : (s.advancePc).regs = s.regs := rfl
@[simp] theorem State.advancePc_pc (s : State) : (s.advancePc).pc = s.pc + 2 := rfl
@[simp] theorem State.advancePc_index (s : State) : (s.advancePc).index = s.index := rfl
@[simp] theorem State.advancePc_stack (s : State) : (s.advancePc).stack = s.stack := rfl
@[simp] theorem State.advancePc_dt (s : State) : (s.advancePc).dt = s.dt := rfl
@[simp] theorem State.advancePc_st (s : State) : (s.advancePc).st = s.st := rfl
@[simp] theorem State.advancePc_fb (s : State) : (s.advancePc).fb = s.fb := rfl
@[simp] theorem State.advancePc_mem (s : State) : (s.advancePc).mem = s.mem := rfl
@[simp] theorem State.advancePc_halt (s : State) : (s.advancePc).halt = s.halt := rfl
@[simp] theorem State.advancePc_history (s : State) : (s.advancePc).history = s.history := rfl
@[simp] theorem State.advancePc_inputs (s : State) : (s.advancePc).inputs = s.inputs := rfl
@[simp] theorem State.advancePc_reg (s : State) (i : Reg) : (s.advancePc).reg i = s.reg i := rfl

/-! ### setIndex -/

@[simp] theorem State.setIndex_regs (s : State) (v : Word) : (s.setIndex v).regs = s.regs := rfl
@[simp] theorem State.setIndex_pc (s : State) (v : Word) : (s.setIndex v).pc = s.pc := rfl
@[simp] theorem State.setIndex_index (s : State) (v : Word) : (s.setIndex v).index = v := rfl
@[simp] theorem State.setIndex_stack (s : State) (v : Word) : (s.setIndex v).stack = s.stack := rfl
@[simp] theorem State.setIndex_dt (s : State) (v : Word) : (s.setIndex v).dt = s.dt := rfl
@[simp] theorem State.setIndex_st (s : State) (v : Word) : (s.setIndex v).st = s.st := rfl
@[simp] theorem State.setIndex_fb (s : State) (v : Word) : (s.setIndex v).fb = s.fb := rfl
@[simp] theorem State.setIndex_mem (s : State) (v : Word) : (s.setIndex v).mem = s.mem := rfl
@[simp] theorem State.setIndex_halt (s : State) (v : Word) : (s.setIndex v).halt = s.halt := rfl
@[simp] theorem State.setIndex_history (s : State) (v : Word) : (s.setIndex v).history = s.history := rfl
@[simp] theorem State.setIndex_inputs (s : State) (v : Word) : (s.setIndex v).inputs = s.inputs := rfl
@[simp] theorem State.setIndex_reg (s : State) (v : Word) (i : Reg) : (s.setIndex v).reg i = s.reg i := rfl

/-! ### setFb -/

@[simp] theorem State.setFb_regs (s : State) (g : Framebuffer) : (s.setFb g).regs = s.regs := rfl
@[simp] theorem State.setFb_pc (s : State) (g : Framebuffer) : (s.setFb g).pc = s.pc := rfl
@[simp] theorem State.setFb_index (s : State) (g : Framebuffer) : (s.setFb g).index = s.index := rfl
@[simp] theorem State.setFb_stack (s : State) (g : Framebuffer) : (s.setFb g).stack = s.stack := rfl
@[simp] theorem State.setFb_dt (s : State) (g : Framebuffer) : (s.setFb g).dt = s.dt := rfl
@[simp] theorem State.setFb_st (s : State) (g : Framebuffer) : (s.setFb g).st = s.st := rfl
@[simp] theorem State.setFb_fb (s : State) (g : Framebuffer) : (s.setFb g).fb = g := rfl
@[simp] theorem State.setFb_mem (s : State) (g : Framebuffer) : (s.setFb g).mem = s.mem := rfl
@[simp] theorem State.setFb_halt (s : State) (g : Framebuffer) : (s.setFb g).halt = s.halt := rfl
@[simp] theorem State.setFb_history (s : State) (g : Framebuffer) : (s.setFb g).history = s.history := rfl
@[simp] theorem State.setFb_inputs (s : State) (g : Framebuffer) : (s.setFb g).inputs = s.inputs := rfl
@[simp] theorem State.setFb_reg (s : State) (g : Framebuffer) (i : Reg) : (s.setFb g).reg i = s.reg i := rfl

/-! ### push -/

@[simp] theorem State.push_regs (s : State) (v : Word) : (s.push v).regs = s.regs := rfl
@[simp] theorem State.push_pc (s : State) (v : Word) : (s.push v).pc = s.pc := rfl
@[simp] theorem State.push_index (s : State) (v : Word) : (s.push v).index = s.index := rfl
@[simp] theorem State.push_stack (s : State) (v : Word) : (s.push v).stack = v :: s.stack := rfl
@[simp] theorem State.push_dt (s : State) (v : Word) : (s.push v).dt = s.dt := rfl
@[simp] theorem State.push_st (s : State) (v : Word) : (s.push v).st = s.st := rfl
@[simp] theorem State.push_fb (s : State) (v : Word) : (s.push v).fb = s.fb := rfl
@[simp] theorem State.push_mem (s : State) (v : Word) : (s.push v).mem = s.mem := rfl
@[simp] theorem State.push_halt (s : State) (v : Word) : (s.push v).halt = s.halt := rfl
@[simp] theorem State.push_history (s : State) (v : Word) : (s.push v).history = s.history := rfl
@[simp] theorem State.push_inputs (s : State) (v : Word) : (s.push v).inputs = s.inputs := rfl
@[simp] theorem State.push_reg (s : State) (v : Word) (i : Reg) : (s.push v).reg i = s.reg i := rfl

/-! ### raise -/

@[simp] theorem State.raise_regs (s : State) (f : FaultRecord) : (s.raise f).regs = s.regs := rfl
@[simp] theorem State.raise_pc (s : State) (f : FaultRecord) : (s.raise f).pc = s.pc := rfl
@[simp] theorem State.raise_index (s : State) (f : FaultRecord) : (s.raise f).index = s.index := rfl
@[simp] theorem State.raise_stack (s : State) (f : FaultRecord) : (s.raise f).stack = s.stack := rfl
@[simp] theorem State.raise_dt (s : State) (f : FaultRecord) : (s.raise f).dt = s.dt := rfl
@[simp] theorem State.raise_st (s : State) (f : FaultRecord) : (s.raise f).st = s.st := rfl
@[simp] theorem State.raise_fb (s : State) (f : FaultRecord) : (s.raise f).fb = s.fb := rfl
@[simp] theorem State.raise_mem (s : State) (f : FaultRecord) : (s.raise f).mem = s.mem := rfl
@[simp] theorem State.raise_halt (s : State) (f : FaultRecord) : (s.raise f).halt = some f := rfl
@[simp] theorem State.raise_history (s : State) (f : FaultRecord) : (s.raise f).history = s.history := rfl
@[simp] theorem State.raise_inputs (s : State) (f : FaultRecord) : (s.raise f).inputs = s.inputs := rfl
@[simp] theorem State.raise_reg (s : State) (f : FaultRecord) (i : Reg) : (s.raise f).reg i = s.reg i := rfl

/-! ### raiseIf -/

@[simp] theorem State.raiseIf_regs (s : State) (b : Bool) (f : FaultRecord) : (s.raiseIf b f).regs = s.regs := rfl
@[simp] theorem State.raiseIf_pc (s : State) (b : Bool) (f : FaultRecord) : (s.raiseIf b f).pc = s.pc := rfl
@[simp] theorem State.raiseIf_index (s : State) (b : Bool) (f : FaultRecord) : (s.raiseIf b f).index = s.index := rfl
@[simp] theorem State.raiseIf_stack (s : State) (b : Bool) (f : FaultRecord) : (s.raiseIf b f).stack = s.stack := rfl
@[simp] theorem State.raiseIf_dt (s : State) (b : Bool) (f : FaultRecord) : (s.raiseIf b f).dt = s.dt := rfl
@[simp] theorem State.raiseIf_st (s : State) (b : Bool) (f : FaultRecord) : (s.raiseIf b f).st = s.st := rfl
@[simp] theorem State.raiseIf_fb (s : State) (b : Bool) (f : FaultRecord) : (s.raiseIf b f).fb = s.fb := rfl
@[simp] theorem State.raiseIf_mem (s : State) (b : Bool) (f : FaultRecord) : (s.raiseIf b f).mem = s.mem := rfl
@[simp] theorem State.raiseIf_halt (s : State) (b : Bool) (f : FaultRecord) : (s.raiseIf b f).halt = if b then some f else s.halt := rfl
@[simp] theorem State.raiseIf_history (s : State) (b : Bool) (f : FaultRecord) : (s.raiseIf b f).history = s.history := rfl
@[simp] theorem State.raiseIf_inputs (s : State) (b : Bool) (f : FaultRecord) : (s.raiseIf b f).inputs = s.inputs := rfl
@[simp] theorem State.raiseIf_reg (s : State) (b : Bool) (f : FaultRecord) (i : Reg) : (s.raiseIf b f).reg i = s.reg i := rfl

/-! ### afterRand -/

@[simp] theorem State.afterRand_regs (s : State) : (s.afterRand).regs = s.regs := rfl
@[simp] theorem State.afterRand_pc (s : State) : (s.afterRand).pc = s.pc := rfl
@[simp] theorem State.afterRand_index (s : State) : (s.afterRand).index = s.index := rfl
@[simp] theorem State.afterRand_stack (s : State) : (s.afterRand).stack = s.stack := rfl
@[simp] theorem State.afterRand_dt (s : State) : (s.afterRand).dt = s.dt := rfl
@[simp] theorem State.afterRand_st (s : State) : (s.afterRand).st = s.st := rfl
@[simp] theorem State.afterRand_fb (s : State) : (s.afterRand).fb = s.fb := rfl
@[simp] theorem State.afterRand_mem (s : State) : (s.afterRand).mem = s.mem := rfl
@[simp] theorem State.afterRand_halt (s : State) : (s.afterRand).halt = s.halt := rfl
@[simp] theorem State.afterRand_history (s : State) : (s.afterRand).history = s.history := rfl
@[simp] theorem State.afterRand_inputs (s : State) : (s.afterRand).inputs = s.inputs.afterRand := rfl
@[simp] theorem State.afterRand_reg (s : State) (i : Reg) : (s.afterRand).reg i = s.reg i := rfl

/-! ### send -/

@[simp] theorem State.send_regs (s : State) (q : RenderRequest) : (s.send q).regs = s.regs := rfl
@[simp] theorem State.send_pc (s : State) (q : RenderRequest) : (s.send q).pc = s.pc := rfl
@[simp] theorem State.send_index (s : State) (q : RenderRequest) : (s.send q).index = s.index := rfl
@[simp] theorem State.send_stack (s : State) (q : RenderRequest) : (s.send q).stack = s.stack := rfl
@[simp] theorem State.send_dt (s : State) (q : RenderRequest) : (s.send q).dt = s.dt := rfl
@[simp] theorem State.send_st (s : State) (q : RenderRequest) : (s.send q).st = s.st := rfl
@[simp] theorem State.send_fb (s : State) (q : RenderRequest) : (s.send q).fb = s.fb := rfl
@[simp] theorem State.send_mem (s : State) (q : RenderRequest) : (s.send q).mem = s.mem := rfl
@[simp] theorem State.send_halt (s : State) (q : RenderRequest) : (s.send q).halt = s.halt := rfl
@[simp] theorem State.send_history (s : State) (q : RenderRequest) : (s.send q).history = s.history ++ [q] := rfl
@[simp] theorem State.send_inputs (s : State) (q : RenderRequest) : (s.send q).inputs = s.inputs.afterAnswer := rfl
@[simp] theorem State.send_reg (s : State) (q : RenderRequest) (i : Reg) : (s.send q).reg i = s.reg i := rfl

/-! ### render -/

@[simp] theorem State.render_regs (s : State) (q : RenderRequest) : (s.render q).regs = s.regs := rfl
@[simp] theorem State.render_pc (s : State) (q : RenderRequest) : (s.render q).pc = s.pc := rfl
@[simp] theorem State.render_index (s : State) (q : RenderRequest) : (s.render q).index = s.index := rfl
@[simp] theorem State.render_stack (s : State) (q : RenderRequest) : (s.render q).stack = s.stack := rfl
@[simp] theorem State.render_dt (s : State) (q : RenderRequest) : (s.render q).dt = s.dt := rfl
@[simp] theorem State.render_st (s : State) (q : RenderRequest) : (s.render q).st = s.st := rfl
@[simp] theorem State.render_fb (s : State) (q : RenderRequest) : (s.render q).fb = s.fb := rfl
@[simp] theorem State.render_mem (s : State) (q : RenderRequest) : (s.render q).mem = s.mem := rfl
@[simp] theorem State.render_halt (s : State) (q : RenderRequest) : (s.render q).halt = if s.inputs.nextAnswer == .fail then some (.renderFailure q) else s.halt := rfl
@[simp] theorem State.render_history (s : State) (q : RenderRequest) : (s.render q).history = s.history ++ [q] := rfl
@[simp] theorem State.render_inputs (s : State) (q : RenderRequest) : (s.render q).inputs = s.inputs.afterAnswer := rfl
@[simp] theorem State.render_reg (s : State) (q : RenderRequest) (i : Reg) : (s.render q).reg i = s.reg i := rfl

/-! ### The register file -/

/-- A write to one register is what that register reads, and leaves every other register alone. -/
theorem State.setReg_reg (s : State) (r q : Reg) (v : Byte) :
    (s.setReg r v).reg q = if q = r then v else s.reg q := by
  simp only [State.reg, State.setReg, Vector.getElem_set]
  by_cases h : q = r
  · simp [h]
  · have : r.toNat ≠ q.toNat := fun e => h (BitVec.eq_of_toNat_eq e.symm)
    simp [h, this]

@[simp] theorem State.setReg_reg_self (s : State) (r : Reg) (v : Byte) : (s.setReg r v).reg r = v := by
  simp [State.setReg_reg]

theorem State.setReg_reg_ne (s : State) {r q : Reg} (v : Byte) (h : q ≠ r) :
    (s.setReg r v).reg q = s.reg q := by
  simp [State.setReg_reg, h]

/-- Every register of the reset state reads 0 (log 2). -/
@[simp] theorem State.reset_reg (r : Reg) : State.reset.reg r = 0 := by
  simp [State.reg, State.reset]

/-- Two states with the same registers, read one by one, have the same register file. -/
theorem State.regs_eq_of_reg {s t : State} (h : ∀ r, s.reg r = t.reg r) : s.regs = t.regs := by
  apply Vector.ext
  intro i hi
  have := h (BitVec.ofNat 4 i)
  simpa [State.reg, Nat.mod_eq_of_lt hi] using this

end Sys2Proof.Machine
end

