-- ==== Sys2Proof/Laws/Ops.lean ====
section
/-! SUPPORT. One lemma for each shared operation that says once everything it can do; the provers cite these instead of
unfolding the operation. -/

namespace Sys2Proof.Machine

/-- A pop on a stack with a top. -/
theorem State.pop_cons {s : State} {v : Word} {rest : List Word} (h : s.stack = v :: rest) :
    s.pop = some (v, { s with stack := rest }) := by
  simp [State.pop, h]

/-- A pop on the empty stack. -/
theorem State.pop_nil {s : State} (h : s.stack = []) : s.pop = none := by
  simp [State.pop, h]

/-- The two things a pop can answer. -/
theorem State.pop_cases (s : State) :
    (s.stack = [] ∧ s.pop = none) ∨ ∃ v rest, s.stack = v :: rest ∧ s.pop = some (v, { s with stack := rest }) := by
  cases h : s.stack with
  | nil => exact .inl ⟨rfl, State.pop_nil h⟩
  | cons v rest => exact .inr ⟨v, rest, rfl, State.pop_cons h⟩

/-- A fetch whose two bytes lie inside memory gives them, high byte first. -/
theorem State.fetch_inside {s : State} (h : s.pc.toNat ≤ 4094) :
    s.fetch = some (wordOfBytes (s.mem.peek s.pc.toNat) (s.mem.peek (s.pc.toNat + 1))) :=
  Memory.readWord_eq_some (by omega)

/-- A fetch past the end of memory gives none. -/
theorem State.fetch_outside {s : State} (h : 4095 ≤ s.pc.toNat) : s.fetch = none :=
  Memory.readWord_eq_none (by omega)

/-- A successful fetch was of an address inside memory. -/
theorem State.pc_of_fetch {s : State} {w : Word} (h : s.fetch = some w) : s.pc.toNat ≤ 4094 := by
  by_cases hp : s.pc.toNat ≤ 4094
  · exact hp
  · rw [State.fetch_outside (by omega)] at h; exact absurd h (by simp)

/-- Inside memory the increment does not wrap. -/
theorem State.advancePc_toNat {s : State} (h : s.pc.toNat ≤ 4096) : s.advancePc.pc.toNat = s.pc.toNat + 2 := by
  have h2 : (2 : Word).toNat = 2 := rfl
  simp only [State.advancePc_pc, BitVec.toNat_add, h2]
  omega

/-- A request answered `ok` is sent and nothing more. -/
theorem State.render_ok {s : State} (q : RenderRequest) (h : s.inputs.nextAnswer = .ok) : s.render q = s.send q := by
  simp only [State.render, State.raiseIf, h]
  rfl

/-- A request answered `fail` is sent and then raises `RenderFailure`. -/
theorem State.render_fail {s : State} (q : RenderRequest) (h : s.inputs.nextAnswer = .fail) :
    s.render q = (s.send q).raise (.renderFailure q) := by
  simp only [State.render, State.raiseIf, h]
  rfl

/-- A result and a flag written in this order: the flag register holds the flag, the destination the result unless it
is the flag register, every other register its old value. -/
theorem State.setResultThenFlag_reg (s : State) (x : Reg) (v f : Byte) (q : Reg) :
    (s.setResultThenFlag x v f).reg q = if q = flagReg then f else if q = x then v else s.reg q := by
  simp only [State.setResultThenFlag, State.setReg_reg]

/-- The copy, flag, shift sequence away from the flag register: the shifted copy and its flag. -/
theorem copyThenShift_reg {x : Reg} (y : Reg) (flag shift : Byte → Byte) (s : State) (hx : x ≠ flagReg) (q : Reg) :
    (copyThenShift x y flag shift s).reg q =
      if q = x then shift (s.reg y) else if q = flagReg then flag (s.reg y) else s.reg q := by
  simp only [copyThenShift, State.setReg_reg, if_true, if_neg hx]
  by_cases h1 : q = x
  · simp [h1]
  · by_cases h2 : q = flagReg <;> simp [h1, h2]

/-- The same sequence into the flag register: the shift of the flag is what remains. -/
theorem copyThenShift_reg_flag (y : Reg) (flag shift : Byte → Byte) (s : State) (q : Reg) :
    (copyThenShift flagReg y flag shift s).reg q =
      if q = flagReg then shift (flag (s.reg y)) else s.reg q := by
  simp only [copyThenShift, State.setReg_reg, if_true]
  by_cases h1 : q = flagReg
  · simp only [if_pos h1]
  · simp only [if_neg h1]

/-- A skip leaves everything but the program counter, and moves that by 2 if it is taken. -/
theorem skipIf_eq (c : Bool) (s : State) : skipIf c s = .next (s.setPc (if c then s.pc + 2 else s.pc)) := by
  cases c <;> rfl

/-- Everything a tick can do: nothing on a halted core, a fetch fault, or the decoded instruction. -/
theorem step_cases (s : State) :
    (s.halt ≠ none ∧ step s = .next s) ∨
    (s.halt = none ∧ 4095 ≤ s.pc.toNat ∧ step s = .next (s.raise (.outOfBounds (.fetch s.pc)))) ∨
    (s.halt = none ∧ s.pc.toNat ≤ 4094 ∧
      step s = exec (decodeWord (wordOfBytes (s.mem.peek s.pc.toNat) (s.mem.peek (s.pc.toNat + 1)))) s.advancePc) := by
  by_cases hh : s.halt = none
  · by_cases hp : s.pc.toNat ≤ 4094
    · exact .inr (.inr ⟨hh, hp, by simp [step, hh, State.fetch_inside hp]⟩)
    · exact .inr (.inl ⟨hh, by omega, by simp [step, hh, State.fetch_outside (show 4095 ≤ s.pc.toNat by omega)]⟩)
  · obtain ⟨f, hf⟩ := Option.ne_none_iff_exists'.mp hh
    exact .inl ⟨hh, by simp [step, hf]⟩

end Sys2Proof.Machine
end

