-- ==== Sys2Proof/Laws/Driver.lean ====
section
/-! SUPPORT. The tick as a transaction: what offering and withdrawing its two inputs does to each field, and the one
lemma that turns a tick into a step. -/

namespace Sys2Proof.Machine

/-! ### offer -/

@[simp] theorem State.offer_regs (s : State) (b : Byte) (a : RenderResult) : (s.offer b a).regs = s.regs := rfl
@[simp] theorem State.offer_pc (s : State) (b : Byte) (a : RenderResult) : (s.offer b a).pc = s.pc := rfl
@[simp] theorem State.offer_index (s : State) (b : Byte) (a : RenderResult) : (s.offer b a).index = s.index := rfl
@[simp] theorem State.offer_stack (s : State) (b : Byte) (a : RenderResult) : (s.offer b a).stack = s.stack := rfl
@[simp] theorem State.offer_dt (s : State) (b : Byte) (a : RenderResult) : (s.offer b a).dt = s.dt := rfl
@[simp] theorem State.offer_st (s : State) (b : Byte) (a : RenderResult) : (s.offer b a).st = s.st := rfl
@[simp] theorem State.offer_fb (s : State) (b : Byte) (a : RenderResult) : (s.offer b a).fb = s.fb := rfl
@[simp] theorem State.offer_mem (s : State) (b : Byte) (a : RenderResult) : (s.offer b a).mem = s.mem := rfl
@[simp] theorem State.offer_halt (s : State) (b : Byte) (a : RenderResult) : (s.offer b a).halt = s.halt := rfl
@[simp] theorem State.offer_history (s : State) (b : Byte) (a : RenderResult) : (s.offer b a).history = s.history := rfl
@[simp] theorem State.offer_reg (s : State) (b : Byte) (a : RenderResult) (i : Reg) : (s.offer b a).reg i = s.reg i := rfl
@[simp] theorem State.offer_fetch (s : State) (b : Byte) (a : RenderResult) : (s.offer b a).fetch = s.fetch := rfl
@[simp] theorem State.offer_fetched (s : State) (b : Byte) (a : RenderResult) : (s.offer b a).fetched = s.fetched := rfl

/-- The byte offered is the byte the next `Rand` draws (R43). -/
@[simp] theorem State.offer_nextRand (s : State) (b : Byte) (a : RenderResult) : (s.offer b a).inputs.nextRand = b := rfl

/-- The answer offered is the answer the next request gets (R44). -/
@[simp] theorem State.offer_nextAnswer (s : State) (b : Byte) (a : RenderResult) :
    (s.offer b a).inputs.nextAnswer = a := rfl

/-! ### withdraw -/

@[simp] theorem State.withdraw_regs (s : State) : s.withdraw.regs = s.regs := rfl
@[simp] theorem State.withdraw_pc (s : State) : s.withdraw.pc = s.pc := rfl
@[simp] theorem State.withdraw_index (s : State) : s.withdraw.index = s.index := rfl
@[simp] theorem State.withdraw_stack (s : State) : s.withdraw.stack = s.stack := rfl
@[simp] theorem State.withdraw_dt (s : State) : s.withdraw.dt = s.dt := rfl
@[simp] theorem State.withdraw_st (s : State) : s.withdraw.st = s.st := rfl
@[simp] theorem State.withdraw_fb (s : State) : s.withdraw.fb = s.fb := rfl
@[simp] theorem State.withdraw_mem (s : State) : s.withdraw.mem = s.mem := rfl
@[simp] theorem State.withdraw_halt (s : State) : s.withdraw.halt = s.halt := rfl
@[simp] theorem State.withdraw_history (s : State) : s.withdraw.history = s.history := rfl
@[simp] theorem State.withdraw_reg (s : State) (i : Reg) : s.withdraw.reg i = s.reg i := rfl

/-! ### tick -/

/-- A tick is the step on the state with the inputs offered, the unused ones withdrawn. -/
theorem tick_of_step {s u : State} {b : Byte} {a : RenderResult} (h : step (s.offer b a) = .next u) :
    tick b a s = .next u.withdraw := by
  simp only [tick, h]

/-- A running core whose fetch succeeds runs the fetched instruction on the state with `pc` incremented. -/
theorem step_of_fetched {s : State} {i : Instr} (hs : s.halt = none) (hi : s.fetched = some i) :
    step s = exec i s.advancePc := by
  unfold State.fetched at hi
  cases hf : s.fetch with
  | none => simp [hf] at hi
  | some w =>
    rw [hf, Option.map_some, Option.some.injEq] at hi
    simp only [step, hs, hf, hi]

end Sys2Proof.Machine
end

