-- ==== Sys2Proof/Laws/Encoding.lean ====
section
/-! SUPPORT. The fields of a word the encoder wrote, and what each sub-selecting arm of the decoder answers. -/

namespace Sys2Proof

@[simp] theorem fieldTop_addr (top : Nibble) (nnn : Addr12) : fieldTop (encodeAddr top nnn) = top := by
  apply BitVec.eq_of_getLsbD_eq
  intro i hi
  simp only [fieldTop, encodeAddr, BitVec.getLsbD_extractLsb', BitVec.getLsbD_append, hi, decide_true, Bool.true_and]
  rw [if_neg (by omega)]; congr 1; omega

@[simp] theorem fieldNNN_addr (top : Nibble) (nnn : Addr12) : fieldNNN (encodeAddr top nnn) = nnn := by
  apply BitVec.eq_of_getLsbD_eq
  intro i hi
  simp only [fieldNNN, encodeAddr, BitVec.getLsbD_extractLsb', BitVec.getLsbD_append, hi, decide_true, Bool.true_and]
  rw [if_pos (by omega)]; congr 1; omega

@[simp] theorem fieldTop_regByte (top : Nibble) (x : Reg) (kk : Byte) : fieldTop (encodeRegByte top x kk) = top :=
  fieldTop_addr top (x ++ kk)

@[simp] theorem fieldX_regByte (top : Nibble) (x : Reg) (kk : Byte) : fieldX (encodeRegByte top x kk) = x := by
  apply BitVec.eq_of_getLsbD_eq
  intro i hi
  simp only [fieldX, encodeRegByte, BitVec.getLsbD_extractLsb', BitVec.getLsbD_append, hi, decide_true, Bool.true_and]
  rw [if_pos (by omega), if_neg (by omega)]; congr 1; omega

@[simp] theorem fieldKK_regByte (top : Nibble) (x : Reg) (kk : Byte) : fieldKK (encodeRegByte top x kk) = kk := by
  apply BitVec.eq_of_getLsbD_eq
  intro i hi
  simp only [fieldKK, encodeRegByte, BitVec.getLsbD_extractLsb', BitVec.getLsbD_append, hi, decide_true, Bool.true_and]
  rw [if_pos (by omega), if_pos (by omega)]; congr 1; omega

@[simp] theorem fieldTop_regReg (top : Nibble) (x y : Reg) (n : Nibble) : fieldTop (encodeRegReg top x y n) = top :=
  fieldTop_addr top (x ++ (y ++ n))

@[simp] theorem fieldX_regReg (top : Nibble) (x y : Reg) (n : Nibble) : fieldX (encodeRegReg top x y n) = x :=
  fieldX_regByte top x (y ++ n)

@[simp] theorem fieldY_regReg (top : Nibble) (x y : Reg) (n : Nibble) : fieldY (encodeRegReg top x y n) = y := by
  apply BitVec.eq_of_getLsbD_eq
  intro i hi
  simp only [fieldY, encodeRegReg, BitVec.getLsbD_extractLsb', BitVec.getLsbD_append, hi, decide_true, Bool.true_and]
  rw [if_pos (by omega), if_pos (by omega), if_neg (by omega)]; congr 1; omega

@[simp] theorem fieldN_regReg (top : Nibble) (x y : Reg) (n : Nibble) : fieldN (encodeRegReg top x y n) = n := by
  apply BitVec.eq_of_getLsbD_eq
  intro i hi
  simp only [fieldN, encodeRegReg, BitVec.getLsbD_extractLsb', BitVec.getLsbD_append, hi, decide_true, Bool.true_and]
  rw [if_pos (by omega), if_pos (by omega), if_pos (by omega)]; congr 1; omega

/-- Well-formedness of an `Unknown`, in the fields of its word. -/
theorem Instr.wf_unknown (w : Word) :
    (Instr.unknown w).wf =
      (unknownFixed (fieldTop w) (fieldKK w) || unknownAlu (fieldTop w) (fieldN w) ||
        unknownKey (fieldTop w) (fieldKK w) || unknownMisc (fieldTop w) (fieldKK w)) := rfl

/-- A nibble is one of sixteen. -/
theorem nibble_cases (n : Nibble) :
    n ∈ [0x0#4, 0x1#4, 0x2#4, 0x3#4, 0x4#4, 0x5#4, 0x6#4, 0x7#4,
         0x8#4, 0x9#4, 0xA#4, 0xB#4, 0xC#4, 0xD#4, 0xE#4, 0xF#4] := by
  revert n; decide

/-- A word is its family nibble and its low 12 bits. -/
theorem encodeAddr_fields (w : Word) : encodeAddr (fieldTop w) (fieldNNN w) = w := by
  apply BitVec.eq_of_getLsbD_eq
  intro i hi
  simp only [fieldTop, fieldNNN, encodeAddr, BitVec.getLsbD_extractLsb', BitVec.getLsbD_append]
  split
  · next h => simp [h]
  · next h =>
    have h1 : i - 12 < 4 := by omega
    have h2 : 12 + (i - 12) = i := by omega
    simp [h1, h2]

/-- A word is its family nibble, its second nibble and its low byte. -/
theorem encodeRegByte_fields (w : Word) : encodeRegByte (fieldTop w) (fieldX w) (fieldKK w) = w := by
  apply BitVec.eq_of_getLsbD_eq
  intro i hi
  simp only [fieldTop, fieldX, fieldKK, encodeRegByte, BitVec.getLsbD_extractLsb', BitVec.getLsbD_append]
  split
  · next h =>
    split
    · next h' => simp [h']
    · next h' =>
      have h1 : i - 8 < 4 := by omega
      have h2 : 8 + (i - 8) = i := by omega
      simp [h1, h2]
  · next h =>
    have h1 : i - 12 < 4 := by omega
    have h2 : 12 + (i - 12) = i := by omega
    simp [h1, h2]

/-- A word is its four nibbles. -/
theorem encodeRegReg_fields (w : Word) : encodeRegReg (fieldTop w) (fieldX w) (fieldY w) (fieldN w) = w := by
  have hkk : (fieldY w ++ fieldN w : Byte) = fieldKK w := by
    apply BitVec.eq_of_getLsbD_eq
    intro i hi
    simp only [fieldY, fieldN, fieldKK, BitVec.getLsbD_extractLsb', BitVec.getLsbD_append]
    split
    · next h => simp [h]; omega
    · next h =>
      have h1 : i - 4 < 4 := by omega
      have h2 : 4 + (i - 4) = i := by omega
      simp [h1, h2, hi]
  have := encodeRegByte_fields w
  rw [← hkk] at this
  exact this

/-- Two bytes laid out by `bytesOfWord` are the word again. -/
theorem wordOfBytes_bytesOfWord (w : Word) : wordOfBytes (w.extractLsb' 8 8) (w.extractLsb' 0 8) = w := by
  apply BitVec.eq_of_getLsbD_eq
  intro i hi
  simp only [wordOfBytes, BitVec.getLsbD_extractLsb', BitVec.getLsbD_append]
  split
  · next h => simp [h]
  · next h =>
    have h1 : i - 8 < 8 := by omega
    have h2 : 8 + (i - 8) = i := by omega
    simp [h1, h2]

/-- The byte decoder on a word laid out in memory order is the word decoder. -/
theorem decodeBytes_bytesOfWord (w : Word) (rest : List Byte) :
    decodeBytes (bytesOfWord w ++ rest) = .ok (decodeWord w, rest) := by
  simp only [bytesOfWord, List.cons_append, List.nil_append, decodeBytes, wordOfBytes_bytesOfWord]

end Sys2Proof
end

