-- ==== Sys2Proof/Laws/Operands.lean ====
section
/-! SUPPORT. What the operand forms and the flag computations are as numbers. -/

namespace Sys2Proof.Machine

@[simp] theorem addrOperand_toNat (nnn : Addr12) : (addrOperand nnn).toNat = nnn.toNat := by
  have := nnn.isLt
  simp only [addrOperand, zext16, BitVec.toNat_setWidth]
  omega

/-- The target of `OffsetJump` is the sum of the two numbers, never wrapped. -/
theorem offsetTarget_toNat (s : State) (nnn : Addr12) :
    (offsetTarget s nnn).toNat = nnn.toNat + (s.reg 0).toNat := by
  have h1 := nnn.isLt
  have h2 := (s.reg 0).isLt
  simp only [offsetTarget, zext16, BitVec.toNat_add, BitVec.toNat_setWidth]
  omega

/-- The start column is the register modulo 64 (R204). -/
theorem startColumn_eq (s : State) (x : Reg) : startColumn s x = (s.reg x).toNat % 64 := by
  have h : ∀ b : Byte, (b &&& 0x3F).toNat = b.toNat % 64 := by decide
  exact h _

/-- The start row is the register modulo 32 (R204). -/
theorem startRow_eq (s : State) (y : Reg) : startRow s y = (s.reg y).toNat % 32 := by
  have h : ∀ b : Byte, (b &&& 0x1F).toNat = b.toNat % 32 := by decide
  exact h _

/-- The sprite runs past memory exactly if `I + N > 4096` (R202). -/
theorem spriteOutOfBounds_iff (s : State) (n : Nibble) :
    spriteOutOfBounds s n = true ↔ 4096 < s.index.toNat + n.toNat := by
  simp [spriteOutOfBounds, Config.memSize]

/-- Row `k` of the sprite is the byte at `I + k`. -/
theorem spriteRows_eq (s : State) (n : Nibble) :
    spriteRows s n = (List.range n.toNat).map fun k => s.mem.peek (s.index.toNat + k) := by
  apply List.ext_getElem?
  intro k
  by_cases h : k < n.toNat
  · rw [spriteRows, Memory.bytesFrom_getElem? _ _ _ _ h]; simp [h]
  · rw [List.getElem?_eq_none (by simp only [spriteRows, Memory.bytesFrom_length]; omega),
      List.getElem?_eq_none (by simp only [List.length_map, List.length_range]; omega)]

/-- The shift flags and shifts as numbers (R186, R188). -/
theorem shrFlag_toNat (v : Byte) : (shrFlag v).toNat = v.toNat % 2 := by
  revert v; decide

theorem shlFlag_eq (v : Byte) : shlFlag v = if v.getLsbD 7 = true then 0x80 else 0x00 := by
  revert v; decide

theorem shiftRight_one_toNat (v : Byte) : (v >>> 1).toNat = v.toNat / 2 := by
  revert v; decide

theorem shiftLeft_one_toNat (v : Byte) : (v <<< 1).toNat = v.toNat * 2 % 256 := by
  revert v; decide

/-- What `Draw` answers, in one line. -/
theorem execDraw_cases (x y : Reg) (n : Nibble) (s : State) :
    (4096 < s.index.toNat + n.toNat ∧ execDraw x y n s = .next (s.raise (.outOfBounds (.sprite s.index n)))) ∨
    (s.index.toNat + n.toNat ≤ 4096 ∧ execDraw x y n s = .next (drawSprite x y n s)) := by
  by_cases h : spriteOutOfBounds s n = true
  · exact .inl ⟨(spriteOutOfBounds_iff s n).mp h, by simp only [execDraw, h, if_true]⟩
  · refine .inr ⟨?_, by simp only [execDraw, h, if_false, Bool.false_eq_true]⟩
    rw [spriteOutOfBounds_iff] at h
    omega

end Sys2Proof.Machine
end

