-- ==== Sys2Proof/Laws/PerInstr.lean ====
section
/-! SUPPORT. The per-instruction family IgnoredBitsZero: the encoder writes every bit the decoder ignores as 0
(30_encoding.md R110, R120), one lemma per constructor. -/

namespace Sys2Proof.Laws.IgnoredBitsZero

/-- The word of the instruction has no bit outside the significant bits of its tag. -/
def Statement (i : Instr) : Prop := encode i &&& significantBits i.tag = encode i

/-- Where every bit is significant there is nothing to show. -/
theorem of_all_significant {i : Instr} (h : significantBits i.tag = BitVec.allOnes 16) : Statement i := by
  rw [Statement, h, BitVec.and_allOnes]

theorem clear : Statement .clear := by unfold Statement; decide
theorem ret : Statement .ret := by unfold Statement; decide
theorem absJump (nnn : Addr12) : Statement (.absJump nnn) := of_all_significant rfl
theorem call (nnn : Addr12) : Statement (.call nnn) := of_all_significant rfl
theorem skipEqVal (x : Reg) (kk : Byte) : Statement (.skipEqVal x kk) := of_all_significant rfl
theorem skipNeqVal (x : Reg) (kk : Byte) : Statement (.skipNeqVal x kk) := of_all_significant rfl
theorem skipEqReg (x : Reg) (y : Reg) : Statement (.skipEqReg x y) := by
  revert x y; unfold Statement; decide
theorem setVal (x : Reg) (kk : Byte) : Statement (.setVal x kk) := of_all_significant rfl
theorem addVal (x : Reg) (kk : Byte) : Statement (.addVal x kk) := of_all_significant rfl
theorem mov (x : Reg) (y : Reg) : Statement (.mov x y) := of_all_significant rfl
theorem or (x : Reg) (y : Reg) : Statement (.or x y) := of_all_significant rfl
theorem and (x : Reg) (y : Reg) : Statement (.and x y) := of_all_significant rfl
theorem xor (x : Reg) (y : Reg) : Statement (.xor x y) := of_all_significant rfl
theorem add (x : Reg) (y : Reg) : Statement (.add x y) := of_all_significant rfl
theorem sub (x : Reg) (y : Reg) : Statement (.sub x y) := of_all_significant rfl
theorem shr (x : Reg) (y : Reg) : Statement (.shr x y) := of_all_significant rfl
theorem subN (x : Reg) (y : Reg) : Statement (.subN x y) := of_all_significant rfl
theorem shl (x : Reg) (y : Reg) : Statement (.shl x y) := of_all_significant rfl
theorem skipNeqReg (x : Reg) (y : Reg) : Statement (.skipNeqReg x y) := by
  revert x y; unfold Statement; decide
theorem setIndex (nnn : Addr12) : Statement (.setIndex nnn) := of_all_significant rfl
theorem offsetJump (nnn : Addr12) : Statement (.offsetJump nnn) := of_all_significant rfl
theorem rand (x : Reg) (kk : Byte) : Statement (.rand x kk) := of_all_significant rfl
theorem draw (x : Reg) (y : Reg) (n : Nibble) : Statement (.draw x y n) := of_all_significant rfl
theorem skipKeyPressed (x : Reg) : Statement (.skipKeyPressed x) := of_all_significant rfl
theorem skipKeyNotPressed (x : Reg) : Statement (.skipKeyNotPressed x) := of_all_significant rfl
theorem getDelay (x : Reg) : Statement (.getDelay x) := of_all_significant rfl
theorem waitKey (x : Reg) : Statement (.waitKey x) := of_all_significant rfl
theorem setDelay (x : Reg) : Statement (.setDelay x) := of_all_significant rfl
theorem setSound (x : Reg) : Statement (.setSound x) := of_all_significant rfl
theorem addIndex (x : Reg) : Statement (.addIndex x) := of_all_significant rfl
theorem setIndexFont (x : Reg) : Statement (.setIndexFont x) := of_all_significant rfl
theorem storeBcd (x : Reg) : Statement (.storeBcd x) := of_all_significant rfl
theorem dumpRegs (x : Reg) : Statement (.dumpRegs x) := of_all_significant rfl
theorem loadRegs (x : Reg) : Statement (.loadRegs x) := of_all_significant rfl
theorem unknown (w : Word) : Statement (.unknown w) := of_all_significant rfl

end Sys2Proof.Laws.IgnoredBitsZero
end

