-- ==== Sys2Proof/Laws/Screen.lean ====
section
/-! SUPPORT. The laws of the framebuffer: read after write of a pixel, and equality pixel by pixel; what one bit of a
sprite does. -/

namespace Sys2Proof.Machine

@[simp] theorem Framebuffer.pixel_blank (r c : Nat) : Framebuffer.blank.pixel r c = false := by
  simp only [Framebuffer.pixel, Framebuffer.blank]
  split <;> simp

/-- Outside the grid a pixel reads false. -/
theorem Framebuffer.pixel_outside {fb : Framebuffer} {r c : Nat} (h : ¬ (r < 32 ∧ c < 64)) :
    fb.pixel r c = false := by
  simp only [Framebuffer.pixel, Config.screenHeight, Config.screenWidth, dif_neg h]

/-- A pixel write inside the grid is what that pixel reads, and leaves every other pixel alone. -/
theorem Framebuffer.pixel_setPixel (fb : Framebuffer) {r c : Nat} (hr : r < 32) (hc : c < 64) (b : Bool)
    (r' c' : Nat) :
    (fb.setPixel r c b).pixel r' c' = if r' = r ∧ c' = c then b else fb.pixel r' c' := by
  by_cases hin : r' < 32 ∧ c' < 64
  · simp only [Framebuffer.pixel, Framebuffer.setPixel, Config.screenHeight, Config.screenWidth, hin, hr, hc,
      and_self, dite_true, Vector.getElem_set]
    by_cases h1 : r = r'
    · subst h1
      by_cases h2 : c = c'
      · simp [h2]
      · simp [h2, Ne.symm h2]
    · simp [h1, Ne.symm h1]
  · rw [Framebuffer.pixel_outside hin, Framebuffer.pixel_outside hin, if_neg (fun h => hin (by omega))]

/-- Two grids with the same pixels are the same grid. -/
theorem Framebuffer.ext_pixel {f g : Framebuffer} (h : ∀ r c, r < 32 → c < 64 → f.pixel r c = g.pixel r c) :
    f = g := by
  apply Vector.ext
  intro r hr
  apply Vector.ext
  intro c hc
  have := h r c hr hc
  simpa only [Framebuffer.pixel, Config.screenHeight, Config.screenWidth, hr, hc, and_self, dite_true] using this

/-- Bit-offset `b` of a row lands inside the grid and is a 1 bit. -/
def bitLands (sx : Nat) (row : Byte) (b : Nat) : Bool := decide (sx + b ≤ 63) && row.getLsbD (7 - b)

/-- What one bit of a sprite does to a grid: the pixel under it is flipped if the bit lands there, and it collides with
a lit pixel; every other pixel stays. -/
theorem blitBit_spec (sx py : Nat) (row : Byte) (acc : Blit) (b : Nat) (hpy : py < 32) :
    (∀ r c, (blitBit sx py row acc b).grid.pixel r c =
      if r = py ∧ c = sx + b ∧ bitLands sx row b = true then !(acc.grid.pixel r c) else acc.grid.pixel r c) ∧
    (blitBit sx py row acc b).collision =
      (acc.collision || (bitLands sx row b && acc.grid.pixel py (sx + b))) := by
  by_cases h1 : sx + b ≤ 63
  · by_cases hb : row.getLsbD (7 - b) = true
    · have hc : sx + b < 64 := by omega
      have hl : bitLands sx row b = true := by simp [bitLands, h1, hb]
      by_cases hp : acc.grid.pixel py (sx + b) = true
      · have he : blitBit sx py row acc b = ⟨acc.grid.setPixel py (sx + b) false, true⟩ := by
          simp only [blitBit, h1, hb, hp, if_true]
        refine ⟨fun r c => ?_, by simp [he, hl, hp]⟩
        rw [he, Framebuffer.pixel_setPixel _ hpy hc]
        by_cases h : r = py ∧ c = sx + b
        · obtain ⟨rfl, rfl⟩ := h; simp [hl, hp]
        · rw [if_neg h, if_neg (fun h' => h ⟨h'.1, h'.2.1⟩)]
      · have he : blitBit sx py row acc b = ⟨acc.grid.setPixel py (sx + b) true, acc.collision⟩ := by
          simp only [blitBit, h1, hb, hp, if_true, Bool.false_eq_true, if_false]
        refine ⟨fun r c => ?_, by simp [he, hp]⟩
        rw [he, Framebuffer.pixel_setPixel _ hpy hc]
        by_cases h : r = py ∧ c = sx + b
        · obtain ⟨rfl, rfl⟩ := h; simp [hl, hp]
        · rw [if_neg h, if_neg (fun h' => h ⟨h'.1, h'.2.1⟩)]
    · have hl : bitLands sx row b = false := by simp [bitLands, hb]
      have he : blitBit sx py row acc b = acc := by
        simp only [blitBit, h1, hb, if_true, Bool.false_eq_true, if_false]
      exact ⟨fun r c => by simp [he, hl], by simp [he, hl]⟩
  · have hl : bitLands sx row b = false := by simp [bitLands, h1]
    have he : blitBit sx py row acc b = acc := by simp only [blitBit, h1, if_false]
    exact ⟨fun r c => by simp [he, hl], by simp [he, hl]⟩

/-- What the first `n` bits of a sprite row do to a grid: they flip the pixels under the 1 bits that land, and they
collide if one of those pixels was lit. -/
theorem blitBits_spec (sx py : Nat) (row : Byte) (hpy : py < 32) (n : Nat) (hn : n ≤ 8) (acc : Blit) :
    (∀ r c, ((List.range n).foldl (blitBit sx py row) acc).grid.pixel r c =
      if r = py ∧ sx ≤ c ∧ c < sx + n ∧ c ≤ 63 ∧ row.getLsbD (7 - (c - sx)) = true then !(acc.grid.pixel r c) else acc.grid.pixel r c) ∧
    (((List.range n).foldl (blitBit sx py row) acc).collision = true ↔
      (acc.collision = true ∨ ∃ c, sx ≤ c ∧ c < sx + n ∧ c ≤ 63 ∧ row.getLsbD (7 - (c - sx)) = true ∧ acc.grid.pixel py c = true)) := by
  induction n with
  | zero => 
    constructor
    · intro r c; rw [if_neg (by omega)]; rfl
    · simp; intro c h1 h2; omega
  | succ n ih =>
    obtain ⟨ih1, ih2⟩ := ih (by omega)
    rw [List.range_succ, List.foldl_append]
    simp only [List.foldl_cons, List.foldl_nil]
    obtain ⟨b1, b2⟩ := blitBit_spec sx py row ((List.range n).foldl (blitBit sx py row) acc) n hpy
    constructor
    · intro r c
      rw [b1, ih1]
      by_cases hc : c = sx + n
      · subst hc
        have hb : bitLands sx row n = (decide (sx + n ≤ 63) && row.getLsbD (7 - n)) := rfl
        have e : sx + n - sx = n := by omega
        rw [if_neg (show ¬ (r = py ∧ sx ≤ sx + n ∧ sx + n < sx + n ∧ sx + n ≤ 63 ∧ row.getLsbD (7 - (sx + n - sx)) = true) by omega)]
        rw [e, hb]
        by_cases h1 : r = py <;> by_cases h2 : sx + n ≤ 63 <;> simp [h1, h2] 
      · rw [if_neg (by tauto)]
        have : (c < sx + n) ↔ (c < sx + (n+1)) := by omega
        simp only [this]
    · rw [b2, Bool.or_eq_true, ih2, Bool.and_eq_true, ih1]
      have hb : bitLands sx row n = (decide (sx + n ≤ 63) && row.getLsbD (7 - n)) := rfl
      rw [if_neg (show ¬ (py = py ∧ sx ≤ sx + n ∧ sx + n < sx + n ∧ sx + n ≤ 63 ∧ row.getLsbD (7 - (sx + n - sx)) = true) by omega)]
      rw [hb, Bool.and_eq_true, decide_eq_true_iff]
      constructor
      · rintro ((h | ⟨c, h1, h2, h3⟩) | ⟨⟨h1, h2⟩, h3⟩)
        · exact .inl h
        · exact .inr ⟨c, h1, by omega, h3⟩
        · exact .inr ⟨sx + n, by omega, by omega, h1, by rw [show sx + n - sx = n by omega]; exact h2, h3⟩
      · rintro (h | ⟨c, h1, h2, h3, h4, h5⟩)
        · exact .inl (.inl h)
        · by_cases hc : c = sx + n
          · subst hc; rw [show sx + n - sx = n by omega] at h4; exact .inr ⟨⟨h3, h4⟩, h5⟩
          · exact .inl (.inr ⟨c, h1, by omega, h3, h4, h5⟩)

/-- A row past the bottom edge is dropped. -/
theorem blitRow_below (sx : Nat) {py : Nat} (row : Byte) (acc : Blit) (h : 31 < py) : blitRow sx py row acc = acc := by
  simp only [blitRow]; rw [if_neg (by omega)]

/-- A row on the grid is its 8 bits. -/
theorem blitRow_inside (sx : Nat) {py : Nat} (row : Byte) (acc : Blit) (h : py ≤ 31) :
    blitRow sx py row acc = (List.range 8).foldl (blitBit sx py row) acc := by
  simp only [blitRow, h, if_true]

end Sys2Proof.Machine
end

