-- ==== Sys2Proof/Tests/Slice0.lean ====
section
/-! SUPPORT. Tests. Expected results come from spec/95_test_vectors.md (its tables 1, 2.1 to 2.9 and program 6) or are
worked by hand from the rule named; each test is one step on a small state. Then one witness for every statement with
hypotheses. -/

namespace Sys2Proof.Tests

open Sys2Proof Sys2Proof.Machine

/-! ## Well-formedness: the check refuses an `Unknown` outside each region of R109 -/

theorem test_wf_refuses_fixed_word : (Instr.unknown 0x05E0).wf = false ∧ (Instr.unknown 0x00EE).wf = false := by decide
theorem test_wf_refuses_alu_word : (Instr.unknown 0x8127).wf = false ∧ (Instr.unknown 0x812E).wf = false := by decide
theorem test_wf_refuses_key_word : (Instr.unknown 0xE39E).wf = false ∧ (Instr.unknown 0xE0A1).wf = false := by decide
theorem test_wf_refuses_misc_word : (Instr.unknown 0xF007).wf = false ∧ (Instr.unknown 0xFA65).wf = false := by decide
theorem test_wf_refuses_full_family : (Instr.unknown 0x1234).wf = false ∧ (Instr.unknown 0xD000).wf = false := by decide
theorem test_wf_accepts_each_region : (Instr.unknown 0x0123).wf = true ∧ (Instr.unknown 0x812F).wf = true ∧
    (Instr.unknown 0xE007).wf = true ∧ (Instr.unknown 0xF09E).wf = true := by decide

/-! ## Decoding: a word of every tag, written out from its pattern (table 2.1) -/

theorem test_decode_fixed : decodeWord 0x00E0 = .clear ∧ decodeWord 0x0FE0 = .clear ∧ decodeWord 0x00EE = .ret ∧
    decodeWord 0x0FEE = .ret ∧ decodeWord 0x0000 = .unknown 0x0000 ∧ decodeWord 0x00E1 = .unknown 0x00E1 := by decide
theorem test_decode_address : decodeWord 0x1FFF = .absJump 0xFFF ∧ decodeWord 0x2ABC = .call 0xABC ∧
    decodeWord 0xA20C = .setIndex 0x20C ∧ decodeWord 0xB123 = .offsetJump 0x123 := by decide
theorem test_decode_regimm : decodeWord 0x3AFF = .skipEqVal 10 0xFF ∧ decodeWord 0x4005 = .skipNeqVal 0 0x05 ∧
    decodeWord 0x6FAB = .setVal 15 0xAB ∧ decodeWord 0x7F01 = .addVal 15 0x01 ∧ decodeWord 0xC0FF = .rand 0 0xFF := by
  decide
theorem test_decode_regreg : decodeWord 0x512F = .skipEqReg 1 2 ∧ decodeWord 0x9ABF = .skipNeqReg 10 11 := by decide
theorem test_decode_alu : decodeWord 0x8120 = .mov 1 2 ∧ decodeWord 0x8121 = .or 1 2 ∧ decodeWord 0x8122 = .and 1 2 ∧
    decodeWord 0x8123 = .xor 1 2 ∧ decodeWord 0x8124 = .add 1 2 ∧ decodeWord 0x8125 = .sub 1 2 ∧
    decodeWord 0x8126 = .shr 1 2 ∧ decodeWord 0x8127 = .subN 1 2 ∧ decodeWord 0x812E = .shl 1 2 ∧
    decodeWord 0x8128 = .unknown 0x8128 ∧ decodeWord 0x812F = .unknown 0x812F := by decide
theorem test_decode_draw : decodeWord 0xDABF = .draw 10 11 15 ∧ decodeWord 0xD000 = .draw 0 0 0 := by decide
theorem test_decode_key : decodeWord 0xE09E = .skipKeyPressed 0 ∧ decodeWord 0xEFA1 = .skipKeyNotPressed 15 ∧
    decodeWord 0xE007 = .unknown 0xE007 := by decide
theorem test_decode_misc : decodeWord 0xF007 = .getDelay 0 ∧ decodeWord 0xF10A = .waitKey 1 ∧
    decodeWord 0xF215 = .setDelay 2 ∧ decodeWord 0xF318 = .setSound 3 ∧ decodeWord 0xF41E = .addIndex 4 ∧
    decodeWord 0xF529 = .setIndexFont 5 ∧ decodeWord 0xF633 = .storeBcd 6 ∧ decodeWord 0xF755 = .dumpRegs 7 ∧
    decodeWord 0xFF65 = .loadRegs 15 ∧ decodeWord 0xF0A1 = .unknown 0xF0A1 := by decide
theorem test_decode_bytes : decodeBytes [0x6A, 0x3C, 0x99] = .ok (.setVal 0xA 0x3C, [0x99]) ∧
    decodeBytes [0x6A] = .error .truncated ∧ decodeTableWord 16 0x6A3C = some (.setVal 0xA 0x3C) := by
  refine ⟨rfl, rfl, rfl⟩

/-! ## One step on a small state -/

/-- The reset state with a word at 0x200 and some registers set. -/
def start (w : Nat) (regs : List (Reg × Byte)) : State :=
  regs.foldl (fun s p => s.setReg p.1 p.2) (State.reset.withFetchWord 16 w)

/-- The reset state with a word at another address and the program counter there. -/
def startAt (a : Word) (w : Nat) : State := { State.reset with pc := a }.withFetchWord 16 w

/-- A step from `s` answers a next state of which `p` holds. -/
def after (s : State) (p : State → Bool) : Bool :=
  match step s with
  | .next t => p t
  | .fault _ => false
  | .refused _ => false

/-- The state before a `Draw` at I = 0x300 with the given sprite bytes. -/
def drawing (w : Nat) (regs : List (Reg × Byte)) (sprite : List Byte) : State :=
  let s := ((start w regs).setIndex 0x300).offer 0 .ok
  { s with mem := (s.mem.writeBytes 0x300 sprite).getD s.mem }

-- table 2.2
theorem test_clear : after (((start 0x00E0 []).setFb (Framebuffer.blank.setPixel 31 63 true)).offer 0 .ok)
    (fun t => t.fb == Framebuffer.blank && t.history == [.clearOutput] && t.pc == 0x202 && t.halt == none) = true := by
  decide
theorem test_clear_render_fails : after ((start 0x00E0 []).offer 0 .fail)
    (fun t => t.history == [.clearOutput] && t.halt == some (.renderFailure .clearOutput) && t.pc == 0x202) = true := by
  decide
theorem test_return : after { startAt 0x20C 0x05EE with stack := [0x206, 0x300] }
    (fun t => t.pc == 0x206 && t.stack == [0x300]) = true := by decide
theorem test_return_underflow : after (startAt 0x20C 0x00EE)
    (fun t => t.halt == some .stackUnderflow && t.pc == 0x20E && t.stack == []) = true := by decide
-- table 2.3
theorem test_absJump : after (start 0x1234 []) (fun t => t.pc == 0x234) = true := by decide
theorem test_call : after (startAt 0x204 0x220A) (fun t => t.pc == 0x20A && t.stack == [0x206]) = true := by decide
theorem test_setIndex : after (start 0xAFFF []) (fun t => t.index == 0xFFF && t.pc == 0x202) = true := by decide
theorem test_offsetJump : after (start 0xB300 [(0, 4), (3, 0x50)]) (fun t => t.pc == 0x304) = true := by decide
theorem test_offsetJump_not_reduced : after (start 0xBFFF [(0, 0xFF)]) (fun t => t.pc == 0x10FE) = true := by decide
-- table 2.4
theorem test_skipEqVal : after (start 0x3005 [(0, 5)]) (fun t => t.pc == 0x204) = true ∧
    after (start 0x3005 [(0, 6)]) (fun t => t.pc == 0x202) = true := by decide
theorem test_skipNeqVal : after (start 0x4005 [(0, 5)]) (fun t => t.pc == 0x202) = true ∧
    after (start 0x4005 [(0, 6)]) (fun t => t.pc == 0x204) = true := by decide
theorem test_skip_at_end_of_memory : after (startAt 0xFFE 0x3000) (fun t => t.pc == 0x1002) = true := by decide
theorem test_setVal : after (start 0x6FAB []) (fun t => t.reg 15 == 0xAB) = true := by decide
theorem test_addVal : after (start 0x700A [(0, 250)]) (fun t => t.reg 0 == 4 && t.reg 15 == 0) = true := by decide
theorem test_addVal_flag_register : after (start 0x7F01 [(15, 255)]) (fun t => t.reg 15 == 0) = true := by decide
theorem test_rand : after ((start 0xC30F [(3, 0xFF)]).offer 0xA7 .ok) (fun t => t.reg 3 == 0x07) = true := by decide
theorem test_rand_mask_zero : after ((start 0xC300 [(3, 9)]).offer 0xFF .ok) (fun t => t.reg 3 == 0) = true := by decide
-- table 2.5
theorem test_skipEqReg : after (start 0x512F [(1, 9), (2, 9)]) (fun t => t.pc == 0x204) = true ∧
    after (start 0x5120 [(1, 9), (2, 8)]) (fun t => t.pc == 0x202) = true := by decide
theorem test_skipNeqReg : after (start 0x9120 [(1, 9), (2, 8)]) (fun t => t.pc == 0x204) = true ∧
    after (start 0x9337 [(3, 1)]) (fun t => t.pc == 0x202) = true := by decide
-- table 2.6
theorem test_mov : after (start 0x8120 [(1, 1), (2, 2), (15, 9)]) (fun t => t.reg 1 == 2 && t.reg 15 == 9) = true := by
  decide
theorem test_or : after (start 0x8121 [(1, 0xF0), (2, 0x0F), (15, 9)])
    (fun t => t.reg 1 == 0xFF && t.reg 15 == 9) = true := by decide
theorem test_and : after (start 0x8122 [(1, 0xF3), (2, 0x3F), (15, 9)])
    (fun t => t.reg 1 == 0x33 && t.reg 15 == 9) = true := by decide
theorem test_xor : after (start 0x8123 [(1, 0xFF), (2, 0x0F), (15, 9)])
    (fun t => t.reg 1 == 0xF0 && t.reg 15 == 9) = true := by decide
theorem test_add : after (start 0x8014 [(0, 200), (1, 100)]) (fun t => t.reg 0 == 44 && t.reg 15 == 1) = true := by
  decide
theorem test_add_flag_register : after (start 0x8F04 [(0, 5), (15, 250)]) (fun t => t.reg 15 == 0) = true ∧
    after (start 0x80F4 [(0, 5), (15, 7)]) (fun t => t.reg 0 == 12 && t.reg 15 == 0) = true := by decide
theorem test_sub : after (start 0x8015 [(0, 5), (1, 10)]) (fun t => t.reg 0 == 251 && t.reg 15 == 1) = true := by decide
theorem test_sub_flag_register : after (start 0x8F05 [(0, 3), (15, 2)]) (fun t => t.reg 15 == 1) = true := by decide
theorem test_subN : after (start 0x8017 [(0, 10), (1, 5)])
    (fun t => t.reg 0 == 251 && t.reg 1 == 5 && t.reg 15 == 1) = true := by decide
theorem test_subN_flag_register : after (start 0x8F07 [(0, 3), (15, 2)]) (fun t => t.reg 15 == 0) = true := by decide
theorem test_shr : after (start 0x8126 [(1, 0xFF), (2, 5)])
    (fun t => t.reg 1 == 2 && t.reg 2 == 5 && t.reg 15 == 1) = true := by decide
theorem test_shr_flag_register : after (start 0x81F6 [(15, 0x83)]) (fun t => t.reg 1 == 0x41 && t.reg 15 == 1) = true ∧
    after (start 0x8F26 [(2, 0xFF), (15, 9)]) (fun t => t.reg 15 == 0 && t.reg 2 == 0xFF) = true := by decide
theorem test_shl : after (start 0x812E [(1, 0xFF), (2, 0x81)])
    (fun t => t.reg 1 == 2 && t.reg 2 == 0x81 && t.reg 15 == 0x80) = true := by decide
theorem test_shl_flag_register : after (start 0x81FE [(15, 0x83)]) (fun t => t.reg 1 == 6 && t.reg 15 == 0x80) = true ∧
    after (start 0x8FFE [(15, 0xFF)]) (fun t => t.reg 15 == 0) = true := by decide
-- table 2.7: clipping at the corner, and the old flag value as a column
theorem test_draw_clips_at_corner : after (drawing 0xD011 [(0, 255), (1, 255)] [0xFF])
    (fun t => t.fb == Framebuffer.blank.setPixel 31 63 true && t.reg 15 == 0 && t.history == [.paint t.fb]) = true := by
  decide
theorem test_draw_collides : after ((drawing 0xDF11 [(1, 3), (15, 5)] [0xA0]).setFb (Framebuffer.blank.setPixel 3 5 true))
    (fun t => t.fb == Framebuffer.blank.setPixel 3 7 true && t.reg 15 == 1 && t.index == 0x300) = true := by decide
-- table 2.7: the last rows, D011 at I = 0x300 with a failing surface, and the sprite one byte past memory
theorem test_draw_render_fails : after ((drawing 0xD011 [(0, 1), (1, 1)] [0x80]).offer 0 .fail)
    (fun t => t.fb.pixel 1 1 && t.halt == some (.renderFailure (.paint t.fb))) = true := by decide
theorem test_draw_past_memory : after ((start 0xD012 [(15, 7)]).setIndex 0xFFF)
    (fun t => t.halt == some (.outOfBounds (.sprite 0xFFF 2)) && t.reg 15 == 7 && t.history == [] && t.pc == 0x202) =
      true := by decide
-- R208 (b) read word for word would ask for 1 here: the pixel was lit before the first of two Draws (log 23)
theorem test_second_draw_can_leave_flag_zero :
    after ((drawing 0xD011 [(0, 1), (1, 1)] [0x80]).setFb (Framebuffer.blank.setPixel 1 1 true))
      (fun t => t.reg 15 == 1 && !t.fb.pixel 1 1 &&
        after (({ t with pc := 0x200 } : State).offer 0 .ok) (fun u => u.reg 15 == 0 && u.fb.pixel 1 1)) = true := by
  decide
/-- The flag clause of R208 (b) contradicts R206, whatever the flag is computed by: no `flag` of a grid and a placed
sprite that is R206's OR for every grid is also, for every grid between two identical Draws, 1 exactly if the sprite has
an undropped 1 bit (log 23). One lit pixel under a one-bit sprite refutes it. -/
theorem spec_r208b_contradicts_r206 (flag : Framebuffer → List Byte → Nat → Nat → Bool)
    (r206 : ∀ fb rows sx sy, flag fb rows sx sy = true ↔ Collides fb rows sx sy) :
    ¬ ∀ (before between : Framebuffer) (rows : List Byte) (sx sy : Nat),
      (∀ r c, r < 32 → c < 64 → between.pixel r c = (before.pixel r c != spriteBit rows sx sy r c)) →
      (flag between rows sx sy = true ↔ ∃ r c, r < 32 ∧ c < 64 ∧ spriteBit rows sx sy r c = true) := by
  intro r208b
  have cleared : ∀ r c, r < 32 → c < 64 → Framebuffer.blank.pixel r c =
      ((Framebuffer.blank.setPixel 0 0 true).pixel r c != spriteBit [0x80] 0 0 r c) := by
    intro r c _ _
    have : spriteBit [0x80] 0 0 r c = decide (r = 0 ∧ c = 0) := by
      by_cases hr : r = 0
      · by_cases hc : c < 8
        · subst hr; revert c; decide
        · simp [spriteBit, hc, show c ≠ 0 by omega]
      · simp [spriteBit, hr]
    rw [this, Framebuffer.pixel_setPixel _ (by decide) (by decide)]
    by_cases h : r = 0 ∧ c = 0 <;> simp [h]
  have second := (r208b _ _ _ _ _ cleared).mpr ⟨0, 0, by decide⟩
  obtain ⟨r, c, _, _, on, _⟩ := (r206 _ _ _ _).mp second
  simp at on
-- table 2.8
theorem test_unimplemented_key : after (start 0xE19E [])
    (fun t => t.halt == some (.unimplementedOpcode (.skipKeyPressed 1) 0xE19E) && t.pc == 0x202) = true ∧
    after (start 0xE2A1 []) (fun t => t.halt == some (.unimplementedOpcode (.skipKeyNotPressed 2) 0xE2A1)) = true := by
  decide
theorem test_unimplemented_timers : after (start 0xF007 [])
    (fun t => t.halt == some (.unimplementedOpcode (.getDelay 0) 0xF007) && t.pc == 0x202) = true ∧
    after (start 0xF30A []) (fun t => t.halt == some (.unimplementedOpcode (.waitKey 3) 0xF30A)) = true ∧
    after (start 0xF415 []) (fun t => t.halt == some (.unimplementedOpcode (.setDelay 4) 0xF415)) = true ∧
    after (start 0xF518 []) (fun t => t.halt == some (.unimplementedOpcode (.setSound 5) 0xF518)) = true := by decide
theorem test_unimplemented_index : after (start 0xF61E [])
    (fun t => t.halt == some (.unimplementedOpcode (.addIndex 6) 0xF61E) && t.index == 0) = true ∧
    after (start 0xF729 []) (fun t => t.halt == some (.unimplementedOpcode (.setIndexFont 7) 0xF729)) = true := by decide
theorem test_unimplemented_memory : after (start 0xF833 [])
    (fun t => t.halt == some (.unimplementedOpcode (.storeBcd 8) 0xF833)) = true ∧
    after (start 0xF955 []) (fun t => t.halt == some (.unimplementedOpcode (.dumpRegs 9) 0xF955)) = true ∧
    after ((start 0xFA65 []).setIndex 0xFFF)
      (fun t => t.halt == some (.unimplementedOpcode (.loadRegs 10) 0xFA65)) = true := by decide
theorem test_unknown : after (start 0x8008 [])
    (fun t => t.halt == some (.unimplementedOpcode (.unknown 0x8008) 0x8008) && t.pc == 0x202) = true := by decide
-- table 2.9
theorem test_reset_runs_into_unknown : after State.reset
    (fun t => t.halt == some (.unimplementedOpcode (.unknown 0) 0) && t.pc == 0x202) = true := by decide
theorem test_load_then_fetch : (State.reset.load [0x12, 0x00]).fetch = some 0x1200 := by decide
theorem test_fetch_bound : (startAt 0xFFE 0x1200).fetch = some 0x1200 ∧
    after { State.reset with pc := 0xFFF } (fun t => t.halt == some (.outOfBounds (.fetch 0xFFF)) && t.pc == 0xFFF) =
      true ∧
    after { State.reset with pc := 0x1000 } (fun t => t.halt == some (.outOfBounds (.fetch 0x1000))) = true := by decide
theorem test_odd_pc : after (startAt 0x201 0x6007) (fun t => t.reg 0 == 7 && t.pc == 0x203) = true := by decide
theorem test_halted_tick : after ((start 0x60FF []).raise .stackUnderflow)
    (fun t => t.pc == 0x200 && t.reg 0 == 0 && t.halt == some .stackUnderflow) = true := by decide
/-- A tick with the given inputs answers a next state of which `p` holds. -/
def afterTick (rand : Byte) (answer : RenderResult) (s : State) (p : State → Bool) : Bool :=
  match tick rand answer s with
  | .next t => p t
  | .fault _ => false
  | .refused _ => false

-- R43, R44: each input where it is used, and left out where it is not
theorem test_tick_rand : afterTick 0xA7 .fail (start 0xC30F []) (fun t => t.reg 3 == 0x07 && t.halt == none) = true := by
  decide
theorem test_tick_clear : afterTick 0xA7 .fail (start 0x00E0 []) (fun t => t.halt == some (.renderFailure .clearOutput)) =
    true ∧ afterTick 0xA7 .ok (start 0x00E0 []) (fun t => t.halt == none && t.inputs.rands == []) = true := by decide
-- R67, glyph 0, the middle of the table and glyph F; 0 on both sides of it (R65)
theorem test_font : (State.reset.mem.peek 0x050 = 0xF0 ∧ State.reset.mem.peek 0x051 = 0x90 ∧
    State.reset.mem.peek 0x077 = 0x40 ∧ State.reset.mem.peek 0x087 = 0xE0 ∧ State.reset.mem.peek 0x09F = 0x80) ∧
    State.reset.mem.peek 0x04F = 0 ∧ State.reset.mem.peek 0x0A0 = 0 := by decide
theorem test_memory_write_of_reset_byte_removes_entry :
    Memory.insert (Memory.insert [] 0x200 7) 0x200 0 = [] ∧ Memory.insert [] 0x050 0xF0 = [] := by decide
-- R288: load once, then no more
theorem test_load_then_load_refused : (match transact (.load [0x12, 0x00]) Session.start with
    | .next p => p.core.mem.peek 0x200 == 0x12 && (transact (.load [0x13]) p matches .refused .loadOutOfPhase)
    | .fault _ => false
    | .refused _ => false) = true := by decide
theorem test_load_refused_after_tick :
    transact (.load [0x12]) ⟨State.reset, .ticked⟩ = .refused .loadOutOfPhase := rfl

/-! ## Witnesses: concrete values that meet the hypotheses of each statement that has some -/

theorem witness_DecodeOfEncode : (Instr.unknown 0x8008).wf = true ∧ (Instr.draw 15 15 15).wf = true := by decide
theorem witness_StepRuns : (startAt 4094 0x1200).halt = none ∧ (startAt 4094 0x1200).pc.toNat ≤ 4094 := by decide
theorem witness_FetchPastMemory :
    ({ State.reset with pc := 4095 } : State).halt = none ∧ 4095 ≤ ({ State.reset with pc := 4095 } : State).pc.toNat := by
  decide
theorem witness_Halted : (State.reset.raise .stackUnderflow).halt ≠ none := by decide
theorem witness_Placed : State.reset.mem.wf = true := by decide
theorem witness_FetchAndSprite : (start 0x1234 []).fetch = some 0x1234 ∧ 14 < (15 : Nibble).toNat := by decide
theorem witness_PcAfter : State.reset.halt = none ∧ ∃ t, step State.reset = .next t := ⟨rfl, _, rfl⟩
theorem witness_FaultLatched : State.reset.halt = none ∧ ∃ t f, step State.reset = .next t ∧ t.halt = some f :=
  ⟨rfl, _, _, rfl, rfl⟩
theorem witness_Return : ({ State.reset with stack := [0x206] } : State).stack = 0x206 :: [] ∧ State.reset.stack = [] :=
  ⟨rfl, rfl⟩
theorem witness_Rand : (0x07 : Byte) &&& ~~~0x0F = 0 := by decide
theorem witness_ArithmeticDestinations : (0 : Reg) ≠ 15 ∧ (15 : Reg) = 15 := by decide
theorem witness_DrawInside : (State.reset.setIndex 0xFF1).index.toNat + (15 : Nibble).toNat ≤ 4096 := by decide
theorem witness_DrawOutside : 4096 < (State.reset.setIndex 0xFF2).index.toNat + (15 : Nibble).toNat := by decide
theorem witness_DrawCollides : Collides (Framebuffer.blank.setPixel 31 63 true) [0x80] 63 31 :=
  ⟨31, 63, by decide, by decide, by decide, by decide⟩
theorem witness_DrawDoesNotCollide : ¬ Collides Framebuffer.blank [0xFF] 63 31 := by
  rintro ⟨r, c, _, _, h, _⟩
  simp at h
theorem witness_Unimplemented : Instr.loadRegs 3 ∈ [Instr.skipKeyPressed 3, .loadRegs 3] := by decide
theorem witness_CallThenReturn : ∃ t, exec (.call 0x300) State.reset = .next t ∧
    ({ State.reset with stack := [0x200] } : State).stack = t.stack := ⟨_, rfl, rfl⟩
theorem witness_WholeMachine : ∃ t, step (start 0x6A3C []) = .next t := ⟨_, rfl⟩
theorem witness_RegistersWritten : (∃ t, exec (.add 1 2) State.reset = .next t) ∧ (3 : Reg) ∉ writtenRegs (.add 1 2) ∧
    (15 : Reg) ∉ readRegs (.add 1 2) := ⟨⟨_, rfl⟩, by decide, by decide⟩
/-- A state at the bounds of the invariant, about to fault on its fetch. -/
def atBounds : State := { State.reset with pc := 0x10FE, index := 0xFFF, stack := [4096, 2], mem := [(0xFFF, 1)] }
theorem witness_InvariantKept : atBounds.Inv where
  mem_wf := by decide
  index_le := by decide
  pc_le := by decide
  dt_zero := rfl
  st_zero := rfl
  stack_range := by simp [atBounds]
theorem witness_InvariantKept_step : ∃ t, step atBounds = .next t := ⟨_, rfl⟩
theorem witness_Load : State.reset.mem.wf = true ∧ (List.replicate 3584 (0 : Byte)).length ≤ 3584 :=
  ⟨by decide, (List.length_replicate ..).le⟩
theorem witness_OverlongLoad : 3584 < (List.replicate 3585 (0 : Byte)).length := by
  rw [List.length_replicate]; decide
theorem witness_LateLoad : (⟨State.reset, .loaded⟩ : Session).phase ≠ .fresh ∧
    (⟨State.reset, .ticked⟩ : Session).phase ≠ .fresh := by decide
theorem witness_TickRand : (start 0xC30F []).halt = none ∧ (start 0xC30F []).fetched = some (.rand 3 0x0F) := by decide
theorem witness_TickClear : (start 0x00E0 []).halt = none ∧ (start 0x00E0 []).fetched = some .clear := by decide
theorem witness_TickDraw : ((start 0xD01F []).setIndex 0xFF1).halt = none ∧
    ((start 0xD01F []).setIndex 0xFF1).fetched = some (.draw 0 1 15) ∧
    ((start 0xD01F []).setIndex 0xFF1).index.toNat + (15 : Nibble).toNat ≤ 4096 := by decide
theorem witness_MemoryDetermined :
    Memory.wf [(0x200, 7)] = true ∧ ∀ a, Memory.peek [(0x200, 7)] a = Memory.peek [(0x200, 7)] a := ⟨by decide, fun _ => rfl⟩
theorem witness_DrawTwice : (0 : Reg) ≠ 15 ∧ (1 : Reg) ≠ 15 ∧ ∃ t u, exec (.draw 0 1 5) (State.reset.setIndex 0x050) = .next t ∧
    exec (.draw 0 1 5) t = .next u ∧ (State.reset.setIndex 0x050).index.toNat + (5 : Nibble).toNat ≤ 4096 :=
  ⟨by decide, by decide, _, _, rfl, rfl, by decide⟩
theorem witness_BlankScreen : State.reset.fb = Framebuffer.blank ∧ State.reset.index.toNat + (15 : Nibble).toNat ≤ 4096 ∧
    ∃ t, exec (.draw 0 1 15) State.reset = .next t := ⟨rfl, by decide, _, rfl⟩

end Sys2Proof.Tests
end

section
/-! PROOFS. What an instruction can do, said once: `exec` answers a next state from every state, and that state is one
of the few shapes of `Effect`. The statements about every step are read off it. -/

namespace Sys2Proof.Machine

/-! ## The effect of one instruction -/

/-- The instructions whose whole effect is a new program counter: the two jumps and the four skips. -/
def isJump : Instr → Bool
  | .absJump _ | .offsetJump _ | .skipEqVal _ _ | .skipNeqVal _ _ | .skipEqReg _ _ | .skipNeqReg _ _ => true
  | _ => false

/-- The twelve tags that decode and have no execution semantics (R220). -/
def isUnimplemented : Instr → Bool
  | .skipKeyPressed _ | .skipKeyNotPressed _ | .getDelay _ | .waitKey _ | .setDelay _ | .setSound _
  | .addIndex _ | .setIndexFont _ | .storeBcd _ | .dumpRegs _ | .loadRegs _ | .unknown _ => true
  | _ => false

/-- The program counter an instruction leaves (R28), in terms of the state it runs on, whose `pc` is already the fetch
address plus 2 (R133). `Effect.pc_eq` ties it to `exec`. -/
def pcAfter (i : Instr) (s : State) : Word :=
  match i with
  | .absJump nnn => zext16 nnn
  | .call nnn => zext16 nnn
  | .offsetJump nnn => zext16 nnn + zext16 (s.reg 0)
  | .ret => s.stack.headD s.pc
  | .skipEqVal x kk => if s.reg x = kk then s.pc + 2 else s.pc
  | .skipNeqVal x kk => if s.reg x = kk then s.pc else s.pc + 2
  | .skipEqReg x y => if s.reg x = s.reg y then s.pc + 2 else s.pc
  | .skipNeqReg x y => if s.reg x = s.reg y then s.pc else s.pc + 2
  | _ => s.pc

theorem exec_of_jump {i : Instr} (hi : isJump i = true) (s : State) :
    exec i s = .next (s.setPc (pcAfter i s)) := by
  cases i
  case absJump nnn => rfl
  case offsetJump nnn => rfl
  case skipEqVal x kk => simp [exec, execSkipEqVal, skipIf_eq, pcAfter]
  case skipNeqVal x kk => simp [exec, execSkipNeqVal, skipIf_eq, pcAfter]
  case skipEqReg x y => simp [exec, execSkipEqReg, skipIf_eq, pcAfter]
  case skipNeqReg x y => simp [exec, execSkipNeqReg, skipIf_eq, pcAfter]
  all_goals exact absurd hi Bool.false_ne_true

theorem exec_ret_nil {s : State} (hs : s.stack = []) : exec .ret s = .next (s.raise .stackUnderflow) := by
  simp only [exec, execReturn, State.pop_nil hs]

theorem exec_ret_cons {s : State} {v : Word} {rest : List Word} (hs : s.stack = v :: rest) :
    exec .ret s = .next (({ s with stack := rest } : State).setPc v) := by
  simp only [exec, execReturn, State.pop_cons hs]

theorem exec_draw_inside {s : State} {n : Nibble} (hin : s.index.toNat + n.toNat ≤ 4096) (x y : Reg) :
    exec (.draw x y n) s = .next (drawSprite x y n s) := by
  obtain ⟨hout, -⟩ | ⟨-, h⟩ := execDraw_cases x y n s
  · omega
  · exact h

theorem exec_draw_outside {s : State} {n : Nibble} (hout : 4096 < s.index.toNat + n.toNat) (x y : Reg) :
    exec (.draw x y n) s = .next (s.raise (.outOfBounds (.sprite s.index n))) := by
  obtain ⟨-, h⟩ | ⟨hin, -⟩ := execDraw_cases x y n s
  · exact h
  · omega

/-- A failing surface latches the request for the grid the `Draw` leaves (R207, R246). -/
@[simp] theorem drawSprite_halt (x y : Reg) (n : Nibble) (s : State) :
    (drawSprite x y n s).halt =
      if s.inputs.nextAnswer == .fail then some (.renderFailure (.paint (drawSprite x y n s).fb)) else s.halt := rfl

/-- The three writes of R186 and R188, each value in terms of the register read at the start. -/
theorem copyThenShift_eq (x y : Reg) (flag shift : Byte → Byte) (s : State) :
    copyThenShift x y flag shift s =
      ((s.setReg x (s.reg y)).setReg flagReg (flag (s.reg y))).setReg x
        (shift (if x = flagReg then flag (s.reg y) else s.reg y)) := by
  simp only [copyThenShift, State.setReg_reg, if_true]

/-- `Effect s i t`: the instruction `i` may take the state `s` it runs on to `t`. The arithmetic and logic instructions,
whose results are statements of their own, are one shape: they write no register but those R22 lists, and nothing
else. -/
inductive Effect (s : State) : Instr → State → Prop
  | registers {i : Instr} {regs : Vector Byte 16} (hpc : pcAfter i s = s.pc)
      (hr : ∀ r, r ∉ writtenRegs i → ({ s with regs := regs } : State).reg r = s.reg r) :
      Effect s i { s with regs := regs }
  | jump {i : Instr} (hi : isJump i = true) : Effect s i (s.setPc (pcAfter i s))
  | call (nnn : Addr12) : Effect s (.call nnn) ((s.push s.pc).setPc (addrOperand nnn))
  | ret {v : Word} {rest : List Word} (hs : s.stack = v :: rest) :
      Effect s .ret (({ s with stack := rest } : State).setPc v)
  | underflow (hs : s.stack = []) : Effect s .ret (s.raise .stackUnderflow)
  | setIndex (nnn : Addr12) : Effect s (.setIndex nnn) (s.setIndex (addrOperand nnn))
  | rand (x : Reg) (kk : Byte) : Effect s (.rand x kk) (s.afterRand.setReg x (s.inputs.nextRand &&& kk))
  | clear : Effect s .clear ((s.setFb Framebuffer.blank).render .clearOutput)
  | draw (x y : Reg) (n : Nibble) (hin : s.index.toNat + n.toNat ≤ 4096) :
      Effect s (.draw x y n) (drawSprite x y n s)
  | drawPastMemory (x y : Reg) (n : Nibble) (hout : 4096 < s.index.toNat + n.toNat) :
      Effect s (.draw x y n) (s.raise (.outOfBounds (.sprite s.index n)))
  | unimplemented {i : Instr} (hi : isUnimplemented i = true) :
      Effect s i (s.raise (.unimplementedOpcode i (encode i)))

namespace Effect

theorem setReg {s : State} {i : Instr} {x : Reg} (v : Byte) (hpc : pcAfter i s = s.pc)
    (hw : writtenRegs i = [x]) : Effect s i (s.setReg x v) :=
  .registers hpc fun _ hr => State.setReg_reg_ne s v (List.ne_of_not_mem_cons (hw ▸ hr))

theorem setResultThenFlag {s : State} {i : Instr} {x : Reg} (v f : Byte) (hpc : pcAfter i s = s.pc)
    (hw : writtenRegs i = [x, flagReg]) : Effect s i (s.setResultThenFlag x v f) :=
  .registers hpc fun r hr => by
    rw [hw, List.mem_pair, not_or] at hr
    exact (State.setResultThenFlag_reg s x v f r).trans (by rw [if_neg hr.2, if_neg hr.1])

theorem copyThenShift {s : State} {i : Instr} {x y : Reg} (flag shift : Byte → Byte)
    (hpc : pcAfter i s = s.pc) (hw : writtenRegs i = [x, flagReg]) :
    Effect s i (copyThenShift x y flag shift s) := by
  rw [copyThenShift_eq]
  refine .registers hpc fun r hr => ?_
  rw [hw, List.mem_pair, not_or] at hr
  exact (State.setReg_reg_ne _ _ hr.1).trans ((State.setReg_reg_ne _ _ hr.2).trans (State.setReg_reg_ne s _ hr.1))

end Effect

/-- Every instruction answers a next state, and that state is one of the shapes of `Effect`. -/
theorem exec_effect (i : Instr) (s : State) : ∃ t, exec i s = .next t ∧ Effect s i t := by
  cases i with
  | clear => exact ⟨_, rfl, .clear⟩
  | ret =>
    obtain ⟨hs, -⟩ | ⟨v, rest, hs, -⟩ := s.pop_cases
    · exact ⟨_, exec_ret_nil hs, .underflow hs⟩
    · exact ⟨_, exec_ret_cons hs, .ret hs⟩
  | call nnn => exact ⟨_, rfl, .call nnn⟩
  | absJump | offsetJump | skipEqVal | skipNeqVal | skipEqReg | skipNeqReg =>
    exact ⟨_, exec_of_jump rfl s, .jump rfl⟩
  | setVal | addVal | mov | or | and | xor => exact ⟨_, rfl, .setReg _ rfl rfl⟩
  | add | sub | subN => exact ⟨_, rfl, .setResultThenFlag _ _ rfl rfl⟩
  | shr | shl => exact ⟨_, rfl, .copyThenShift _ _ rfl rfl⟩
  | setIndex nnn => exact ⟨_, rfl, .setIndex nnn⟩
  | rand x kk => exact ⟨_, rfl, .rand x kk⟩
  | draw x y n =>
    obtain ⟨hout, h⟩ | ⟨hin, h⟩ := execDraw_cases x y n s
    · exact ⟨_, h, .drawPastMemory x y n hout⟩
    · exact ⟨_, h, .draw x y n hin⟩
  | skipKeyPressed | skipKeyNotPressed | getDelay | waitKey | setDelay | setSound | addIndex | setIndexFont
  | storeBcd | dumpRegs | loadRegs | unknown => exact ⟨_, rfl, .unimplemented rfl⟩

theorem effect_of_exec {i : Instr} {s t : State} (h : exec i s = .next t) : Effect s i t := by
  obtain ⟨u, hu, he⟩ := exec_effect i s
  rw [hu, Host.Outcome.next.injEq] at h
  exact h ▸ he

/-! ## What an effect does to each part of the state -/

namespace Effect

variable {s t : State} {i : Instr}

theorem pc_eq (h : Effect s i t) : t.pc = pcAfter i s := by
  cases h with
  | registers hpc => exact hpc.symm
  | ret hs => simp [pcAfter, hs]
  | underflow hs => simp [pcAfter, hs]
  | unimplemented hi =>
    cases i with
    | absJump | call | offsetJump | ret | skipEqVal | skipNeqVal | skipEqReg | skipNeqReg =>
      exact absurd hi Bool.false_ne_true
    | _ => rfl
  | jump | call | setIndex | rand | clear | draw | drawPastMemory => rfl

theorem mem_eq (h : Effect s i t) : t.mem = s.mem := by
  cases h <;> rfl

theorem timers_eq (h : Effect s i t) : t.dt = s.dt ∧ t.st = s.st := by
  cases h <;> exact ⟨rfl, rfl⟩

theorem index_cases (h : Effect s i t) :
    t.index = s.index ∨ ∃ nnn, i = .setIndex nnn ∧ t.index = addrOperand nnn := by
  cases h
  case setIndex nnn => exact .inr ⟨nnn, rfl, rfl⟩
  all_goals exact .inl rfl

theorem stack_cases (h : Effect s i t) :
    t.stack = s.stack ∨ (∃ nnn, i = .call nnn ∧ t.stack = s.pc :: s.stack) ∨
    (i = .ret ∧ s.stack = t.pc :: t.stack) := by
  cases h
  case call nnn => exact .inr (.inl ⟨nnn, rfl, rfl⟩)
  case ret v rest hs => exact .inr (.inr ⟨rfl, hs⟩)
  all_goals exact .inl rfl

theorem history_cases (h : Effect s i t) :
    t.history = s.history ∨ (i = .clear ∧ t.history = s.history ++ [.clearOutput]) ∨
    ∃ x y n, i = .draw x y n ∧ t.history = s.history ++ [.paint t.fb] := by
  cases h
  case clear => exact .inr (.inl ⟨rfl, rfl⟩)
  case draw x y n _ => exact .inr (.inr ⟨x, y, n, rfl, rfl⟩)
  all_goals exact .inl rfl

theorem fb_cases (h : Effect s i t) :
    t.fb = s.fb ∨ (i = .clear ∧ t.fb = Framebuffer.blank) ∨
    ∃ x y n, i = .draw x y n ∧ t.fb = (blit s.fb (startColumn s x) (startRow s y) (spriteRows s n)).grid := by
  cases h
  case clear => exact .inr (.inl ⟨rfl, rfl⟩)
  case draw x y n _ => exact .inr (.inr ⟨x, y, n, rfl, rfl⟩)
  all_goals exact .inl rfl

theorem reg_eq (h : Effect s i t) {r : Reg} (hr : r ∉ writtenRegs i) : t.reg r = s.reg r := by
  cases h
  case registers hw => exact hw r hr
  case rand x kk => exact State.setReg_reg_ne s.afterRand _ (List.ne_of_not_mem_cons hr)
  case draw x y n _ => exact State.setReg_reg_ne (s.setFb _) _ (List.ne_of_not_mem_cons hr)
  all_goals rfl

end Effect

/-! ## What a step can do -/

theorem step_of_halted {s : State} (hs : s.halt ≠ none) : step s = .next s := by
  obtain ⟨-, h⟩ | ⟨hh, -⟩ | ⟨hh, -⟩ := step_cases s
  · exact h
  · exact absurd hh hs
  · exact absurd hh hs

theorem step_of_fetched_none {s : State} (hs : s.halt = none) (hf : s.fetched = none) :
    step s = .next (s.raise (.outOfBounds (.fetch s.pc))) := by
  simp only [step, hs, Option.map_eq_none_iff.mp hf]

theorem step_total (s : State) : ∃ t, step s = .next t := by
  obtain ⟨-, h⟩ | ⟨-, -, h⟩ | ⟨-, -, h⟩ := step_cases s
  · exact ⟨_, h⟩
  · exact ⟨_, h⟩
  · obtain ⟨t, ht, -⟩ := exec_effect _ s.advancePc
    exact ⟨t, h.trans ht⟩

/-- A step that answers `t` stood still on a halted core, latched a fetch fault, or had the effect of the fetched
instruction on the state with `pc` incremented. -/
theorem step_inv {s t : State} (h : step s = .next t) :
    (s.halt ≠ none ∧ t = s) ∨
    (s.halt = none ∧ s.fetched = none ∧ t = s.raise (.outOfBounds (.fetch s.pc))) ∨
    ∃ i, s.halt = none ∧ s.fetched = some i ∧ s.pc.toNat ≤ 4094 ∧ Effect s.advancePc i t := by
  obtain ⟨hh, hstep⟩ | ⟨hh, hpc, hstep⟩ | ⟨hh, hpc, hstep⟩ := step_cases s
  · exact .inl ⟨hh, Host.Outcome.next.inj (h.symm.trans hstep)⟩
  · have hf : s.fetched = none := by rw [State.fetched, State.fetch_outside hpc, Option.map_none]
    exact .inr (.inl ⟨hh, hf, Host.Outcome.next.inj (h.symm.trans hstep)⟩)
  · refine .inr (.inr ⟨_, hh, ?_, hpc, effect_of_exec (hstep.symm.trans h)⟩)
    rw [State.fetched, State.fetch_inside hpc, Option.map_some]

end Sys2Proof.Machine
end

section
/-! PROOFS. The invariant of R47 through one instruction, and the reset contents of the memory. -/

namespace Sys2Proof.Machine

theorem State.Inv.raise {s : State} (h : s.Inv) (f : FaultRecord) : (s.raise f).Inv where
  mem_wf := h.mem_wf
  index_le := h.index_le
  pc_le := h.pc_le
  dt_zero := h.dt_zero
  st_zero := h.st_zero
  stack_range := h.stack_range

/-- The bound of R29: no instruction leaves `pc` past 0xFFF + 0xFF, which only `OffsetJump` can reach. -/
theorem pcAfter_le (i : Instr) {s : State} (hpc : s.pc.toNat ≤ 4096) (hstack : ∀ v ∈ s.stack, v.toNat ≤ 4096) :
    (pcAfter i s).toNat ≤ 0x10FE := by
  have hself : s.pc.toNat ≤ 0x10FE := by omega
  have hskip : (s.pc + 2).toNat ≤ 0x10FE := by
    have h := State.advancePc_toNat hpc
    rw [State.advancePc_pc] at h
    omega
  have haddr (nnn : Addr12) : (zext16 nnn).toNat ≤ 0x10FE := by
    have h := addrOperand_toNat nnn
    rw [addrOperand] at h
    omega
  have hite (c : Prop) [Decidable c] {a b : Word} (ha : a.toNat ≤ 0x10FE) (hb : b.toNat ≤ 0x10FE) :
      (if c then a else b).toNat ≤ 0x10FE := by split <;> assumption
  cases i
  case absJump nnn => exact haddr nnn
  case call nnn => exact haddr nnn
  case offsetJump nnn =>
    have h := offsetTarget_toNat s nnn
    rw [offsetTarget] at h
    rw [pcAfter]
    omega
  case ret =>
    cases hs : s.stack with
    | nil => simpa only [pcAfter, hs, List.headD_nil] using hself
    | cons v rest =>
      have hv := hstack v (hs ▸ List.mem_cons_self)
      simp only [pcAfter, hs, List.headD_cons]
      omega
  case skipEqVal x kk => exact hite _ hskip hself
  case skipNeqVal x kk => exact hite _ hself hskip
  case skipEqReg x y => exact hite _ hskip hself
  case skipNeqReg x y => exact hite _ hself hskip
  all_goals exact hself

/-- An instruction fetched inside memory keeps the invariant. The fetch bound is what keeps a pushed return address at
most 4096. -/
theorem Effect.inv {s t : State} {i : Instr} (h : Effect s.advancePc i t) (hs : s.Inv) (hpc : s.pc.toNat ≤ 4094) :
    t.Inv := by
  have hnext : s.advancePc.pc.toNat = s.pc.toNat + 2 := State.advancePc_toNat (by omega)
  obtain ⟨hdt, hst⟩ := h.timers_eq
  refine
    { mem_wf := h.mem_eq ▸ hs.mem_wf
      index_le := ?index_le
      pc_le := ?pc_le
      dt_zero := hdt.trans hs.dt_zero
      st_zero := hst.trans hs.st_zero
      stack_range := ?stack_range }
  case index_le =>
    obtain hi | ⟨nnn, -, hi⟩ := h.index_cases
    · exact hi ▸ hs.index_le
    · rw [hi, addrOperand_toNat]
      omega
  case pc_le =>
    rw [h.pc_eq]
    exact pcAfter_le i (by omega) fun v hv => (hs.stack_range v hv).2
  case stack_range =>
    intro v hv
    obtain hstack | ⟨nnn, -, hstack⟩ | ⟨-, hstack⟩ := h.stack_cases
    · exact hs.stack_range v (hstack ▸ hv)
    · rw [hstack] at hv
      obtain rfl | hv := List.mem_cons.mp hv
      · omega
      · exact hs.stack_range v hv
    · have hv' : v ∈ s.advancePc.stack := hstack ▸ List.mem_cons_of_mem _ hv
      exact hs.stack_range v hv'

/-- The reset contents by the bounds R66 gives the font. -/
theorem initByte_eq (a : Nat) :
    initByte a = if 0x050 ≤ a ∧ a ≤ 0x09F then font.getD (a - 0x050) 0 else 0 := by
  by_cases hlo : a < 0x050
  · rw [if_neg (by omega), initByte, if_pos hlo]
  · by_cases hhi : a ≤ 0x09F
    · rw [if_pos (by omega), initByte, if_neg hlo]
    · rw [if_neg (by omega), initByte_of_ge (by omega)]

end Sys2Proof.Machine
end

section
/-! PROOFS. The grid the blitter leaves, pixel by pixel: row after row it XORs the sprite into the old grid. -/

namespace Sys2Proof.Machine

theorem spriteBit_nil (sx sy r c : Nat) : spriteBit [] sx sy r c = false := by
  by_cases h : sy ≤ r
  · simp [spriteBit, Nat.not_lt.mpr h]
  · simp [spriteBit, h]

theorem spriteBit_singleton (row : Byte) (sx sy r c : Nat) :
    spriteBit [row] sx sy r c = true ↔ r = sy ∧ sx ≤ c ∧ c < sx + 8 ∧ row.getLsbD (7 - (c - sx)) = true := by
  by_cases hr : r = sy
  · subst hr
    simp [spriteBit, and_assoc]
  · have : ¬ (sy ≤ r ∧ r < sy + 1) := by omega
    simp only [spriteBit, List.length_singleton, Bool.and_eq_true, decide_eq_true_iff]
    tauto

/-- A sprite is its top row and, one row further down, the rest; no row of the plane meets both. -/
theorem spriteBit_cons (row : Byte) (rest : List Byte) (sx sy r c : Nat) :
    spriteBit (row :: rest) sx sy r c = (spriteBit [row] sx sy r c != spriteBit rest sx (sy + 1) r c) := by
  obtain hr | rfl | hr := Nat.lt_trichotomy r sy
  · simp [spriteBit, Nat.not_le.mpr hr, show ¬ sy + 1 ≤ r by omega]
  · simp [spriteBit]
  · have hk : r - sy = (r - (sy + 1)) + 1 := by omega
    have hlen : r < sy + (rest.length + 1) ↔ r < sy + 1 + rest.length := by omega
    simp [spriteBit, hk, hlen, hr.le, show sy + 1 ≤ r from hr, show ¬ r < sy + 1 by omega]

theorem blitRow_pixel (sx py : Nat) (row : Byte) (acc : Blit) {r c : Nat} (hr : r < 32) (hc : c < 64) :
    (blitRow sx py row acc).grid.pixel r c = (acc.grid.pixel r c != spriteBit [row] sx py r c) := by
  have hbit := spriteBit_singleton row sx py r c
  by_cases hpy : py ≤ 31
  · have hc' : c ≤ 63 := by omega
    rw [blitRow_inside sx row acc hpy, (blitBits_spec sx py row (by omega) 8 le_rfl acc).1]
    by_cases hb : spriteBit [row] sx py r c = true
    · rw [if_pos (by tauto), hb, Bool.bne_true]
    · rw [if_neg (by tauto), Bool.eq_false_of_not_eq_true hb, Bool.bne_false]
  · have hb : spriteBit [row] sx py r c = false := by
      refine Bool.eq_false_of_not_eq_true fun h => ?_
      obtain ⟨rfl, -⟩ := hbit.mp h
      omega
    rw [blitRow_below sx row acc (by omega), hb, Bool.bne_false]

theorem blitRows_pixel (sx : Nat) (rows : List Byte) (sy : Nat) (acc : Blit) {r c : Nat} (hr : r < 32) (hc : c < 64) :
    (blitRows sx sy rows acc).grid.pixel r c = (acc.grid.pixel r c != spriteBit rows sx sy r c) := by
  induction rows generalizing sy acc with
  | nil => rw [blitRows, spriteBit_nil, Bool.bne_false]
  | cons row rest ih => rw [blitRows, ih, blitRow_pixel sx sy row acc hr hc, spriteBit_cons row rest, Bool.bne_assoc]

end Sys2Proof.Machine
end

section
/-! PROOFS. Frames, and two runs of one instruction of which the second was given another value in one register
first. -/

namespace Sys2Proof.Machine

/-! ## Frames -/

theorem OnlyChanges.refl (regs : List Reg) (parts : List Part) (s : State) : OnlyChanges regs parts s s :=
  ⟨fun _ _ => rfl, fun p _ => by cases p <;> simp only [Part.Same, implies_true]⟩

theorem OnlyChanges.setReg (s : State) (r : Reg) (v : Byte) : OnlyChanges [r] [] s (s.setReg r v) :=
  ⟨fun _ hq => State.setReg_reg_ne s v (List.ne_of_not_mem_cons hq),
    fun p _ => by cases p <;> simp [Part.Same]⟩

theorem OnlyChanges.setHalt (s : State) (f : Option FaultRecord) : OnlyChanges [] [.halt] s { s with halt := f } :=
  ⟨fun _ _ => rfl, fun p hp => by cases p <;> simp [Part.Same] at hp ⊢⟩

/-! ## Two writes to the register file -/

theorem State.setReg_setReg (s : State) (r : Reg) (v w : Byte) : (s.setReg r v).setReg r w = s.setReg r w := by
  simp only [State.setReg, Vector.set_set]

theorem State.setReg_comm (s : State) {q r : Reg} (h : q ≠ r) (v w : Byte) :
    (s.setReg q v).setReg r w = (s.setReg r w).setReg q v := by
  have hn : q.toNat ≠ r.toNat := fun e => h (BitVec.eq_of_toNat_eq e)
  simp only [State.setReg, Vector.set_comm _ _ hn]

/-! ## Two runs that differ in one register -/

/-- `a` and `b` are what two runs have reached, the first from `s`, the second from `s` with `v` in `x[r]`: both have
written `x[r]` and are equal, or neither has and that register is all they differ in. -/
def Shadows (s : State) (r : Reg) (v : Byte) (a b : State) : Prop :=
  b = a ∨ (a.reg r = s.reg r ∧ b = a.setReg r v)

namespace Shadows

variable {s a b : State} {r : Reg} {v : Byte}

theorem apart (ha : a.reg r = s.reg r) : Shadows s r v a (a.setReg r v) := .inr ⟨ha, rfl⟩

/-- The same write in both runs: to `x[r]` it makes them equal, to another register it leaves them as far apart. -/
theorem setReg (h : Shadows s r v a b) (x : Reg) (w : Byte) : Shadows s r v (a.setReg x w) (b.setReg x w) := by
  obtain rfl | ⟨ha, rfl⟩ := h
  · exact .inl rfl
  · by_cases hx : r = x
    · subst hx
      exact .inl (a.setReg_setReg r v w)
    · exact .inr ⟨(a.setReg_reg_ne w hx).trans ha, a.setReg_comm hx v w⟩

theorem setFb (h : Shadows s r v a b) (g : Framebuffer) : Shadows s r v (a.setFb g) (b.setFb g) := by
  obtain rfl | ⟨ha, rfl⟩ := h
  · exact .inl rfl
  · exact .inr ⟨ha, rfl⟩

theorem render (h : Shadows s r v a b) (q : RenderRequest) : Shadows s r v (a.render q) (b.render q) := by
  obtain rfl | ⟨ha, rfl⟩ := h
  · exact .inl rfl
  · exact .inr ⟨ha, rfl⟩

theorem onlyChanges (h : Shadows s r v a b) : OnlyChanges [r] [] a b := by
  obtain rfl | ⟨-, rfl⟩ := h
  · exact .refl ..
  · exact .setReg ..

theorem reg_cases (h : Shadows s r v a b) : b.reg r = a.reg r ∨ (a.reg r = s.reg r ∧ b.reg r = v) := by
  obtain rfl | ⟨ha, rfl⟩ := h
  · exact .inl rfl
  · exact .inr ⟨ha, a.setReg_reg_self r v⟩

end Shadows

/-- What `pcAfter` looks at: the program counter, the stack and the registers R22 lists as read. -/
theorem pcAfter_congr {i : Instr} {s u : State} (hpc : u.pc = s.pc) (hstack : u.stack = s.stack)
    (hread : ∀ q ∈ readRegs i, u.reg q = s.reg q) : pcAfter i u = pcAfter i s := by
  cases i <;> simp_all [pcAfter, readRegs]

/-- A register an instruction does not read may hold anything: both runs compute the same values and write them to the
same registers in the same order. -/
theorem exec_shadows (i : Instr) (s : State) {r : Reg} (v : Byte) (hr : r ∉ readRegs i) :
    ∃ t t', exec i s = .next t ∧ exec i (s.setReg r v) = .next t' ∧ Shadows s r v t t' := by
  have hread : ∀ q ∈ readRegs i, (s.setReg r v).reg q = s.reg q := fun q hq =>
    State.setReg_reg_ne s v fun h => hr (h ▸ hq)
  cases i with
  | ret =>
    obtain ⟨hs, -⟩ | ⟨w, rest, hs, -⟩ := s.pop_cases
    · exact ⟨_, _, exec_ret_nil hs, exec_ret_nil (s := s.setReg r v) hs, .apart rfl⟩
    · exact ⟨_, _, exec_ret_cons hs, exec_ret_cons (s := s.setReg r v) hs, .apart rfl⟩
  | absJump | offsetJump | skipEqVal | skipNeqVal | skipEqReg | skipNeqReg =>
    refine ⟨_, _, exec_of_jump rfl s, exec_of_jump rfl (s.setReg r v), ?_⟩
    rw [pcAfter_congr (s := s) (u := s.setReg r v) rfl rfl hread]
    exact .apart rfl
  | setVal => exact ⟨_, _, rfl, rfl, .setReg (.apart rfl) _ _⟩
  | rand => exact ⟨_, _, rfl, rfl, .setReg (.apart (a := s.afterRand) rfl) _ _⟩
  | addVal | mov =>
    refine ⟨_, _, rfl, rfl, ?_⟩
    rw [hread _ (by simp [readRegs])]
    exact .setReg (.apart rfl) _ _
  | or x y | and x y | xor x y =>
    refine ⟨_, _, rfl, rfl, ?_⟩
    rw [hread x (by simp [readRegs]), hread y (by simp [readRegs])]
    exact .setReg (.apart rfl) _ _
  | add x y | sub x y | subN x y =>
    refine ⟨_, _, rfl, rfl, ?_⟩
    rw [hread x (by simp [readRegs]), hread y (by simp [readRegs])]
    exact .setReg (.setReg (.apart rfl) _ _) _ _
  | shr x y | shl x y =>
    refine ⟨_, _, rfl, rfl, ?_⟩
    rw [copyThenShift_eq, copyThenShift_eq, hread y (by simp [readRegs])]
    exact .setReg (.setReg (.setReg (.apart rfl) _ _) _ _) _ _
  | draw x y n =>
    by_cases hin : s.index.toNat + n.toNat ≤ 4096
    · have hx : startColumn (s.setReg r v) x = startColumn s x := by
        rw [startColumn_eq, startColumn_eq, hread x (by simp [readRegs])]
      have hy : startRow (s.setReg r v) y = startRow s y := by
        rw [startRow_eq, startRow_eq, hread y (by simp [readRegs])]
      refine ⟨_, _, exec_draw_inside hin x y, exec_draw_inside (s := s.setReg r v) hin x y, ?_⟩
      have hrows : spriteRows (s.setReg r v) n = spriteRows s n := rfl
      rw [drawSprite, drawSprite, hx, hy, hrows, State.setReg_fb]
      exact .render (.setReg (.setFb (.apart rfl) _) _ _) _
    · have hout := Nat.not_le.mp hin
      exact ⟨_, _, exec_draw_outside hout x y, exec_draw_outside (s := s.setReg r v) hout x y, .apart rfl⟩
  | clear | call | setIndex | skipKeyPressed | skipKeyNotPressed | getDelay | waitKey | setDelay | setSound
  | addIndex | setIndexFont | storeBcd | dumpRegs | loadRegs | unknown =>
    exact ⟨_, _, rfl, rfl, .apart rfl⟩

end Sys2Proof.Machine
end

section
/-! PROOFS. Where the two inputs of a tick go (R43, R44). -/

namespace Sys2Proof.Machine

/-- The offered inputs pass through an instruction unused, or it is a `Rand`, or it sends one request from a state that
carries them unused. -/
theorem exec_offer_cases (i : Instr) (s : State) :
    (∃ t : State, ∀ b a, exec i (s.offer b a) = .next (t.offer b a)) ∨
    (∃ x kk, i = .rand x kk ∧
      ∀ b a, exec i (s.offer b a) = .next ((s.offer b a).afterRand.setReg x (b &&& kk))) ∨
    ∃ (u : State) (q : RenderRequest), (∀ b a, exec i (s.offer b a) = .next ((u.offer b a).render q)) ∧
      (i = .clear ∨ ∃ x y n, i = .draw x y n ∧ s.index.toNat + n.toNat ≤ 4096) := by
  obtain ⟨t, ht, -⟩ := exec_effect i s
  cases i with
  | clear => exact .inr (.inr ⟨s.setFb Framebuffer.blank, .clearOutput, fun _ _ => rfl, .inl rfl⟩)
  | rand x kk => exact .inr (.inl ⟨x, kk, rfl, fun _ _ => rfl⟩)
  | ret =>
    obtain ⟨hs, -⟩ | ⟨v, rest, hs, -⟩ := s.pop_cases
    · exact .inl ⟨s.raise .stackUnderflow, fun b a => exec_ret_nil (s := s.offer b a) hs⟩
    · exact .inl ⟨({ s with stack := rest } : State).setPc v, fun b a => exec_ret_cons (s := s.offer b a) hs⟩
  | draw x y n =>
    by_cases hin : s.index.toNat + n.toNat ≤ 4096
    · let drawn := blit s.fb (startColumn s x) (startRow s y) (spriteRows s n)
      refine .inr (.inr ⟨(s.setFb drawn.grid).setReg flagReg (collisionFlag drawn.collision), .paint drawn.grid, ?_,
        .inr ⟨x, y, n, rfl, hin⟩⟩)
      exact fun b a => exec_draw_inside (s := s.offer b a) hin x y
    · refine .inl ⟨s.raise (.outOfBounds (.sprite s.index n)), fun b a => ?_⟩
      exact exec_draw_outside (s := s.offer b a) (Nat.not_le.mp hin) x y
  | absJump | offsetJump | skipEqVal | skipNeqVal | skipEqReg | skipNeqReg =>
    refine .inl ⟨t, fun b a => ?_⟩
    obtain rfl := Host.Outcome.next.inj ((exec_of_jump rfl s).symm.trans ht)
    exact exec_of_jump rfl (s.offer b a)
  | call | setIndex | setVal | addVal | mov | or | and | xor | add | sub | subN | shr | shl | skipKeyPressed
  | skipKeyNotPressed | getDelay | waitKey | setDelay | setSound | addIndex | setIndexFont | storeBcd | dumpRegs
  | loadRegs | unknown =>
    refine .inl ⟨t, fun b a => ?_⟩
    obtain rfl := Host.Outcome.next.inj ht
    rfl

/-- A step that leaves the offered inputs unused: withdrawn, nothing is left of them. -/
theorem tick_of_step_unused {s u : State} {b : Byte} {a : RenderResult}
    (h : step (s.offer b a) = .next (u.offer b a)) : tick b a s = .next u.withdraw :=
  (tick_of_step h :)

/-- The same of a tick: what an unused input leaves is withdrawn, so it is gone. -/
theorem tick_cases (s : State) :
    (∃ t, ∀ b a, tick b a s = .next t) ∨
    (s.halt = none ∧ ∃ x kk, s.fetched = some (.rand x kk) ∧
      ∀ b a, tick b a s = .next (s.advancePc.afterRand.withdraw.setReg x (b &&& kk))) ∨
    (s.halt = none ∧ ∃ (u : State) (q : RenderRequest),
      (∀ b a, tick b a s = .next ((u.offer b a).render q).withdraw) ∧ (s.fetched = some .clear ∨
        ∃ x y n, s.fetched = some (.draw x y n) ∧ s.index.toNat + n.toNat ≤ 4096)) := by
  by_cases hh : s.halt = none
  · cases hf : s.fetched with
    | none =>
      refine .inl ⟨(s.raise (.outOfBounds (.fetch s.pc))).withdraw, fun b a => ?_⟩
      exact tick_of_step_unused (step_of_fetched_none (s := s.offer b a) hh hf)
    | some i =>
      have hstep (b a) : step (s.offer b a) = exec i (s.advancePc.offer b a) :=
        step_of_fetched (s := s.offer b a) hh hf
      obtain ⟨t, ht⟩ | ⟨x, kk, rfl, ht⟩ | ⟨u, q, ht, hi⟩ := exec_offer_cases i s.advancePc
      · exact .inl ⟨t.withdraw, fun b a => tick_of_step_unused ((hstep b a).trans (ht b a))⟩
      · exact .inr (.inl ⟨hh, x, kk, rfl, fun b a => tick_of_step ((hstep b a).trans (ht b a))⟩)
      · refine .inr (.inr ⟨hh, u, q, fun b a => tick_of_step ((hstep b a).trans (ht b a)), ?_⟩)
        obtain rfl | ⟨x, y, n, rfl, hin⟩ := hi
        · exact .inl rfl
        · exact .inr ⟨x, y, n, rfl, hin⟩
  · exact .inl ⟨s.withdraw, fun b a => tick_of_step_unused (step_of_halted (s := s.offer b a) hh)⟩

end Sys2Proof.Machine
end

section
/-! PROOFS. The statements of 10_state.md, settled. -/

namespace Sys2Proof.Proofs

open Sys2Proof.Machine

/-- Settles O48: the latch is no part of the invariant, and each part of it is what `Effect` says of that part. -/
theorem invariantKeptByEveryStep : Obligations.InvariantKeptByEveryStep := by
  intro s t hs h
  obtain ⟨-, rfl⟩ | ⟨-, -, rfl⟩ | ⟨i, -, -, hpc, he⟩ := step_inv h
  · exact hs
  · exact hs.raise _
  · exact he.inv hs hpc

/-- Settles O17: `pcAfter` on the state with `pc` incremented, where a taken skip adds 2 to the 2 of the fetch. -/
theorem pcAfterEveryTick : Obligations.PcAfterEveryTick := by
  intro s t hh h
  have hskip : s.pc + 2 + 2 = s.pc + 4 := BitVec.add_assoc s.pc 2 2
  obtain ⟨hne, -⟩ | ⟨-, hf, rfl⟩ | ⟨i, -, hf, -, he⟩ := step_inv h
  · exact absurd hh hne
  · rw [hf]
    rfl
  · rw [hf, he.pc_eq]
    cases i
    case skipEqVal | skipNeqVal | skipEqReg | skipNeqReg =>
      simp only [pcAfter, State.advancePc_pc, State.advancePc_reg, hskip]
    all_goals rfl

/-- Settles O41. -/
theorem noStepWritesMemory : Obligations.NoStepWritesMemory := by
  intro s t h
  obtain ⟨-, rfl⟩ | ⟨-, -, rfl⟩ | ⟨i, -, -, -, he⟩ := step_inv h
  · rfl
  · rfl
  · exact he.mem_eq

/-- Settles O42, with the blitter's rows read pixel by pixel. -/
theorem onlyClearAndDrawWriteTheScreen : Obligations.OnlyClearAndDrawWriteTheScreen := by
  intro s t h
  obtain ⟨-, rfl⟩ | ⟨-, -, rfl⟩ | ⟨i, -, hf, -, he⟩ := step_inv h
  · exact .inl rfl
  · exact .inl rfl
  · obtain hfb | ⟨rfl, hfb⟩ | ⟨x, y, n, rfl, hfb⟩ := he.fb_cases
    · exact .inl hfb
    · exact .inr (.inl ⟨hf, hfb ▸ Framebuffer.pixel_blank⟩)
    · exact .inr (.inr ⟨x, y, n, hf, fun r c hr hc => hfb ▸ blitRows_pixel _ _ _ _ hr hc⟩)

/-- Settles O43. -/
theorem onlySetIndexWritesIndex : Obligations.OnlySetIndexWritesIndex := by
  intro s t h
  obtain ⟨-, rfl⟩ | ⟨-, -, rfl⟩ | ⟨i, -, hf, -, he⟩ := step_inv h
  · exact .inl rfl
  · exact .inl rfl
  · obtain hi | ⟨nnn, rfl, hi⟩ := he.index_cases
    · exact .inl hi
    · exact .inr ⟨nnn, hf, hi⟩

/-- Settles O44. -/
theorem onlyCallAndReturnMoveTheStack : Obligations.OnlyCallAndReturnMoveTheStack := by
  intro s t h
  obtain ⟨-, rfl⟩ | ⟨-, -, rfl⟩ | ⟨i, -, hf, -, he⟩ := step_inv h
  · exact .inl rfl
  · exact .inl rfl
  · obtain hstack | ⟨nnn, rfl, hstack⟩ | ⟨rfl, hstack⟩ := he.stack_cases
    · exact .inl hstack
    · exact .inr (.inl ⟨nnn, hf, hstack⟩)
    · exact .inr (.inr ⟨hf, hstack⟩)

/-- Settles O45. -/
theorem timersNeverChange : Obligations.TimersNeverChange := by
  intro s t h
  obtain ⟨-, rfl⟩ | ⟨-, -, rfl⟩ | ⟨i, -, -, -, he⟩ := step_inv h
  · exact ⟨rfl, rfl⟩
  · exact ⟨rfl, rfl⟩
  · exact he.timers_eq

/-- Settles O46: the frame from `Effect`, the two runs from `Shadows`. -/
theorem registersReadAndWrittenAsListed : Obligations.RegistersReadAndWrittenAsListed := by
  refine ⟨fun i s t r h hr => (effect_of_exec h).reg_eq hr, fun i s r v hr => ?_⟩
  obtain ⟨t, t', ht, ht', hs⟩ := exec_shadows i s v hr
  exact ⟨t, t', ht, ht', hs.onlyChanges, hs.reg_cases⟩

/-- Settles O47. -/
theorem historyGrowsByAtMostOneRequest : Obligations.HistoryGrowsByAtMostOneRequest := by
  intro s t h
  obtain ⟨-, rfl⟩ | ⟨-, -, rfl⟩ | ⟨i, -, hf, -, he⟩ := step_inv h
  · exact .inl rfl
  · exact .inl rfl
  · obtain hh | ⟨rfl, hh⟩ | ⟨x, y, n, rfl, hh⟩ := he.history_cases
    · exact .inl hh
    · exact .inr (.inl ⟨hf, hh⟩)
    · exact .inr (.inr ⟨x, y, n, hf, hh⟩)

/-- Settles O58: the step on the offered state is `exec` of the fetched instruction, one equation for each of the
three. -/
theorem tickRunsItsInstructionOnItsTwoInputs : Obligations.TickRunsItsInstructionOnItsTwoInputs := by
  intro rand answer s hh
  obtain ⟨u, hu⟩ := step_total (s.offer rand answer)
  have hexec {i : Instr} (hf : s.fetched = some i) : exec i (s.advancePc.offer rand answer) = .next u :=
    (step_of_fetched (s := s.offer rand answer) hh hf).symm.trans hu
  refine ⟨_, tick_of_step hu, fun x kk hf => ?_, fun hf => ?_, fun x y n hf hin => ?_⟩
  · obtain rfl := Host.Outcome.next.inj (hexec hf)
    exact State.setReg_reg_self _ x _
  · obtain rfl := Host.Outcome.next.inj (hexec hf)
    simp [hh]
  · have hdraw := exec_draw_inside (s := s.advancePc.offer rand answer) hin x y
    obtain rfl := Host.Outcome.next.inj (hdraw.symm.trans (hexec hf))
    simp [hh]

/-- Settles O59: the two ticks are the same case of `tick_cases`, and differ by one register write or by the latch. -/
theorem tickInputsReachNothingElse : Obligations.TickInputsReachNothingElse := by
  intro rand rand' answer answer' s
  obtain ⟨t, ht⟩ | ⟨hh, x, kk, hf, ht⟩ | ⟨hh, u, q, ht, hf⟩ := tick_cases s
  · exact ⟨t, t, ht .., ht .., .inl rfl⟩
  · refine ⟨_, _, ht rand answer, ht rand' answer', ?_⟩
    by_cases hrand : rand = rand'
    · exact .inl (by rw [hrand])
    · refine .inr (.inl ⟨hh, hrand, x, kk, hf, ?_⟩)
      rw [← State.setReg_setReg _ x (rand &&& kk) (rand' &&& kk)]
      exact .setReg ..
  · refine ⟨_, _, ht rand answer, ht rand' answer', ?_⟩
    by_cases hanswer : answer = answer'
    · subst hanswer
      exact .inl rfl
    · exact .inr (.inr ⟨hh, hanswer, .setHalt _ _, hf⟩)

/-- Settles O49. -/
theorem invariantHoldsAtReset : Obligations.InvariantHoldsAtReset where
  mem_wf := reset_mem_wf
  index_le := by decide
  pc_le := by decide
  dt_zero := rfl
  st_zero := rfl
  stack_range := by simp [State.reset]

/-- Settles O50: the reset memory lists nothing, so it reads its reset contents. -/
theorem resetStateAsListed : Obligations.ResetStateAsListed :=
  ⟨rfl, rfl, rfl, Framebuffer.pixel_blank, rfl, rfl, State.reset_reg, rfl, rfl, rfl, initByte_eq⟩

/-- Settles O57: every step answers a next state, the one the tick and its transaction pass on. -/
theorem tickIsOneStepOnItsTwoInputs : Obligations.TickIsOneStepOnItsTwoInputs := by
  intro rand answer s
  obtain ⟨u, hu⟩ := step_total (s.offer rand answer)
  have ht := tick_of_step hu
  refine ⟨u, hu, ht, fun phase => ?_⟩
  simp only [transact, ht]
  rfl

end Sys2Proof.Proofs
end

section
/-! PROOFS. The laws of the memory's bytes: the two bytes of a fetched word, the word at the program counter after
`placeWord`, and that a canonical list is determined by what its addresses read. -/

namespace Sys2Proof.Machine

/-! ## The bytes of a word -/

theorem wordOfBytes_high (hi lo : Byte) : (wordOfBytes hi lo).extractLsb' 8 8 = hi :=
  BitVec.extractLsb'_append_eq_left

theorem wordOfBytes_low (hi lo : Byte) : (wordOfBytes hi lo).extractLsb' 0 8 = lo :=
  BitVec.extractLsb'_append_eq_right

/-- A fetched word is the two bytes at the program counter, high byte first (R63, R69). -/
theorem State.eq_of_fetch {s : State} {w : Word} (h : s.fetch = some w) :
    w = wordOfBytes (s.mem.peek s.pc.toNat) (s.mem.peek (s.pc.toNat + 1)) :=
  Option.some.inj (h.symm.trans (State.fetch_inside (State.pc_of_fetch h)))

/-! ## A placed word -/

@[simp] theorem State.placeWord_halt (s : State) (w : Word) : (s.placeWord w).halt = none := rfl

theorem State.placeWord_mem (s : State) (w : Word) :
    (s.placeWord w).mem =
      (s.mem.insert (s.placeWord w).pc.toNat (w.extractLsb' 8 8)).insert ((s.placeWord w).pc.toNat + 1)
        (w.extractLsb' 0 8) := rfl

theorem State.placeWord_pc_le (s : State) (w : Word) : (s.placeWord w).pc.toNat ≤ 4094 := by
  simp only [State.placeWord, Config.memSize]
  split
  · decide
  · omega

/-- A word placed in a canonical memory is the word the next fetch reads. -/
theorem State.placeWord_fetch {s : State} (w : Word) (hs : s.mem.wf = true) : (s.placeWord w).fetch = some w := by
  have hpc := s.placeWord_pc_le w
  have hfirst := Memory.wf_insert (a := (s.placeWord w).pc.toNat) (w.extractLsb' 8 8) hs (by omega)
  rw [State.fetch_inside hpc, State.placeWord_mem, Memory.peek_insert_ne _ (by omega), Memory.peek_insert_self _ hs,
    Memory.peek_insert_self _ hfirst, wordOfBytes_bytesOfWord]

theorem State.withFetchWord_sixteen (s : State) (w : Nat) :
    s.withFetchWord 16 w = s.placeWord (BitVec.ofNat 16 w) := by
  have hw : BitVec.ofNat 16 (w % 2 ^ 16) = BitVec.ofNat 16 w := BitVec.eq_of_toNat_eq (Nat.mod_mod w (2 ^ 16))
  rw [State.withFetchWord, hw]

/-! ## A canonical list is determined by its bytes -/

/-- Where a memory reads the byte another one lists first, its entries do not all lie above that address: a listed byte
is not the reset contents. -/
theorem Memory.lower_le_head {m rest : Memory} {lo lo' k : Nat} {v : Byte}
    (h : Memory.wfFrom lo ((k, v) :: rest) = true) (hm : Memory.wfFrom lo' m = true) (hread : m.peek k = v) :
    lo' ≤ k := by
  obtain ⟨-, -, hv, -⟩ := Memory.wfFrom_cons.mp h
  by_contra hlt
  exact hv (hread.symm.trans (Memory.peek_of_lt hm (by omega)))

theorem Memory.wfFrom_head {rest : Memory} {lo k : Nat} {v : Byte} (h : Memory.wfFrom lo ((k, v) :: rest) = true) :
    Memory.wfFrom k ((k, v) :: rest) = true :=
  Memory.wfFrom_cons.mpr ⟨le_rfl, (Memory.wfFrom_cons.mp h).2⟩

theorem Memory.peek_cons_self (k : Nat) (v : Byte) (rest : Memory) : Memory.peek ((k, v) :: rest) k = v := if_pos rfl

theorem Memory.peek_cons_ne {a k : Nat} (h : a ≠ k) (v : Byte) (rest : Memory) :
    Memory.peek ((k, v) :: rest) a = Memory.peek rest a := if_neg h

/-- By the entries of the two lists: neither can list an address before the other's first, so the first entries agree,
and what follows reads its reset contents there. -/
theorem Memory.eq_of_peek_eq {m m' : Memory} {lo lo' : Nat} (h : Memory.wfFrom lo m = true)
    (h' : Memory.wfFrom lo' m' = true) (hread : ∀ a, m.peek a = m'.peek a) : m = m' := by
  induction m generalizing m' lo lo' with
  | nil =>
    cases m' with
    | nil => rfl
    | cons e' rest' =>
      obtain ⟨k', v'⟩ := e'
      have hle : k' + 1 ≤ k' :=
        Memory.lower_le_head (m := []) h' rfl ((hread k').trans (Memory.peek_cons_self k' v' rest'))
      omega
  | cons e rest ih =>
    obtain ⟨k, v⟩ := e
    have hk : m'.peek k = v := (hread k).symm.trans (Memory.peek_cons_self k v rest)
    cases m' with
    | nil =>
      have hle : k + 1 ≤ k := Memory.lower_le_head (m := []) h rfl hk
      omega
    | cons e' rest' =>
      obtain ⟨k', v'⟩ := e'
      have hk' := (hread k').trans (Memory.peek_cons_self k' v' rest')
      obtain rfl : k = k' := Nat.le_antisymm (Memory.lower_le_head h' (Memory.wfFrom_head h) hk')
        (Memory.lower_le_head h (Memory.wfFrom_head h') hk)
      obtain rfl : v' = v := (Memory.peek_cons_self k v' rest').symm.trans hk
      obtain ⟨-, -, -, hrest⟩ := Memory.wfFrom_cons.mp h
      obtain ⟨-, -, -, hrest'⟩ := Memory.wfFrom_cons.mp h'
      rw [ih hrest hrest' fun a => ?_]
      by_cases ha : a = k
      · rw [ha, Memory.peek_of_lt hrest k.lt_succ_self, Memory.peek_of_lt hrest' k.lt_succ_self]
      · rw [← Memory.peek_cons_ne ha v' rest, hread a, Memory.peek_cons_ne ha]

end Sys2Proof.Machine
end

section
/-! PROOFS. The statements of 20_memory.md, settled. -/

namespace Sys2Proof.Proofs

open Sys2Proof.Machine

/-- Settles O15: the placed word is what the next fetch reads, so the step runs the instruction it decodes to. -/
theorem placedWordIsFetchedAndRun : Obligations.PlacedWordIsFetchedAndRun := by
  intro s w hs
  rw [State.withFetchWord_sixteen]
  have hfetched : (s.placeWord (BitVec.ofNat 16 w)).fetched = some (decodeWord (BitVec.ofNat 16 w)) := by
    rw [State.fetched, State.placeWord_fetch _ hs, Option.map_some]
  exact step_of_fetched (State.placeWord_halt ..) hfetched

/-- Settles O54. -/
theorem memoryIsDeterminedByItsBytes : Obligations.MemoryIsDeterminedByItsBytes :=
  fun _ _ h h' hread => Memory.eq_of_peek_eq h h' hread

/-- Settles O12: the fetch reads nothing, and the latch is all `raise` sets. -/
theorem fetchPastMemoryLatchesOutOfBounds : Obligations.FetchPastMemoryLatchesOutOfBounds := by
  intro s hh hpc
  have hfetched : s.fetched = none := by rw [State.fetched, State.fetch_outside hpc, Option.map_none]
  exact ⟨_, step_of_fetched_none hh hfetched, rfl, .setHalt s _⟩

/-- Settles O16. -/
theorem fetchAndSpriteReadsSeeTheSameBytes : Obligations.FetchAndSpriteReadsSeeTheSameBytes := by
  refine ⟨fun s w h => ?_, fun s n k hk => Memory.bytesFrom_getElem? _ _ _ k hk⟩
  rw [State.eq_of_fetch h]
  exact ⟨wordOfBytes_high .., wordOfBytes_low ..⟩

end Sys2Proof.Proofs
end

section
/-! PROOFS. Decoding the word of an instruction value: each arm of the decoder on the words the encoder writes for it
and on the words of its region of the Unknown space (R95, R109). -/

namespace Sys2Proof

theorem decodeWord_of_unknownFixed {w : Word} (h : unknownFixed (fieldTop w) (fieldKK w) = true) :
    decodeWord w = .unknown w := by
  obtain ⟨htop, hkk⟩ : fieldTop w = 0x0#4 ∧ fieldKK w ≠ 0xE0#8 ∧ fieldKK w ≠ 0xEE#8 := by
    simpa [unknownFixed] using h
  simp [decodeWord, decodeFixed, htop, hkk]

theorem decodeWord_of_unknownAlu {w : Word} (h : unknownAlu (fieldTop w) (fieldN w) = true) :
    decodeWord w = .unknown w := by
  obtain ⟨htop, hn⟩ : fieldTop w = 0x8#4 ∧ fieldN w ∈ [0x8#4, 0x9#4, 0xA#4, 0xB#4, 0xC#4, 0xD#4, 0xF#4] := by
    simpa only [unknownAlu, Bool.and_eq_true, beq_iff_eq, List.contains_iff_mem] using h
  simp only [decodeWord, decodeAlu, htop]
  split <;> simp_all

theorem decodeWord_of_unknownKey {w : Word} (h : unknownKey (fieldTop w) (fieldKK w) = true) :
    decodeWord w = .unknown w := by
  obtain ⟨htop, hkk⟩ : fieldTop w = 0xE#4 ∧ fieldKK w ≠ 0x9E#8 ∧ fieldKK w ≠ 0xA1#8 := by
    simpa [unknownKey] using h
  simp [decodeWord, decodeKey, htop, hkk]

theorem decodeWord_of_unknownMisc {w : Word} (h : unknownMisc (fieldTop w) (fieldKK w) = true) :
    decodeWord w = .unknown w := by
  obtain ⟨htop, hkk⟩ : fieldTop w = 0xF#4 ∧
      fieldKK w ∉ [0x07#8, 0x0A#8, 0x15#8, 0x18#8, 0x1E#8, 0x29#8, 0x33#8, 0x55#8, 0x65#8] := by
    simpa [unknownMisc] using h
  simp only [decodeWord, decodeMisc, htop]
  split <;> simp_all

/-- A word of the Unknown space decodes to `Unknown`, by its region of R109. -/
theorem decodeWord_of_wf_unknown {w : Word} (h : (Instr.unknown w).wf = true) : decodeWord w = .unknown w := by
  rw [Instr.wf_unknown, Bool.or_eq_true, Bool.or_eq_true, Bool.or_eq_true] at h
  obtain ((h | h) | h) | h := h
  · exact decodeWord_of_unknownFixed h
  · exact decodeWord_of_unknownAlu h
  · exact decodeWord_of_unknownKey h
  · exact decodeWord_of_unknownMisc h

/-- The words of the two register families, whatever their ignored low nibble (R104). -/
theorem decodeWord_regReg_five (x y : Reg) (n : Nibble) : decodeWord (encodeRegReg 0x5 x y n) = .skipEqReg x y := by
  simp [decodeWord]

theorem decodeWord_regReg_nine (x y : Reg) (n : Nibble) : decodeWord (encodeRegReg 0x9 x y n) = .skipNeqReg x y := by
  simp [decodeWord]

/-- By the format of the instruction: the fields of its word are its operands, and its family nibble and selector pick
its arm. -/
theorem decodeWord_encode {i : Instr} (h : i.wf = true) : decodeWord (encode i) = i := by
  cases i with
  | clear | ret => rfl
  | absJump | call | setIndex | offsetJump => simp [encode, decodeWord]
  | skipEqVal | skipNeqVal | setVal | addVal | rand => simp [encode, decodeWord]
  | skipEqReg x y => exact decodeWord_regReg_five x y 0x0
  | skipNeqReg x y => exact decodeWord_regReg_nine x y 0x0
  | mov | or | and | xor | add | sub | shr | subN | shl => simp [encode, decodeWord, decodeAlu]
  | draw => simp [encode, decodeWord]
  | skipKeyPressed | skipKeyNotPressed => simp [encode, decodeWord, decodeKey]
  | getDelay | waitKey | setDelay | setSound | addIndex | setIndexFont | storeBcd | dumpRegs | loadRegs =>
    simp [encode, decodeWord, decodeMisc]
  | unknown w => exact decodeWord_of_wf_unknown h

end Sys2Proof
end

section
/-! PROOFS. What the decoder answers on any word: a well-formed instruction value whose own word is that word with the
ignored bits cleared (R109, R110). -/

namespace Sys2Proof

/-- The instruction value is well formed, and its word is `w` but for the bits its tag ignores. -/
structure Reads (w : Word) (i : Instr) : Prop where
  wf : i.wf = true
  encode_eq : encode i = w &&& significantBits i.tag

/-- Where every bit is significant the word is the encoder's own. -/
theorem Reads.of_encode {w : Word} {i : Instr} (hsig : significantBits i.tag = BitVec.allOnes 16) (hwf : i.wf = true)
    (h : encode i = w) : Reads w i :=
  ⟨hwf, by rw [hsig, BitVec.and_allOnes, h]⟩

theorem encodeAddr_of_top {w : Word} {top : Nibble} (h : fieldTop w = top) : encodeAddr top (fieldNNN w) = w :=
  h ▸ encodeAddr_fields w

theorem encodeRegByte_of_top {w : Word} {top : Nibble} (h : fieldTop w = top) :
    encodeRegByte top (fieldX w) (fieldKK w) = w :=
  h ▸ encodeRegByte_fields w

theorem encodeRegReg_of_top {w : Word} {top : Nibble} (h : fieldTop w = top) :
    encodeRegReg top (fieldX w) (fieldY w) (fieldN w) = w :=
  h ▸ encodeRegReg_fields w

theorem encodeRegByte_of_selector {w : Word} {top : Nibble} {kk : Byte} (h : fieldTop w = top) (hkk : fieldKK w = kk) :
    encodeRegByte top (fieldX w) kk = w :=
  hkk ▸ encodeRegByte_of_top h

theorem encodeRegReg_of_selector {w : Word} {top n : Nibble} (h : fieldTop w = top) (hn : fieldN w = n) :
    encodeRegReg top (fieldX w) (fieldY w) n = w :=
  hn ▸ encodeRegReg_of_top h

/-- Clearing the second nibble (the ignored bits of `Clear` and `Return`). -/
theorem encodeRegByte_and (top : Nibble) (x : Reg) (kk : Byte) :
    encodeRegByte top x kk &&& 0xF0FF = encodeRegByte top 0x0 kk := by
  have hmask : (0xF0FF : Word) = BitVec.allOnes 4 ++ (0#4 ++ BitVec.allOnes 8) := by decide
  rw [hmask, encodeRegByte, BitVec.and_append, BitVec.and_append, BitVec.and_allOnes, BitVec.and_allOnes,
    BitVec.and_zero]
  rfl

/-- Clearing the low nibble (the ignored bits of the two register families). -/
theorem encodeRegReg_and (top : Nibble) (x y : Reg) (n : Nibble) :
    encodeRegReg top x y n &&& 0xFFF0 = encodeRegReg top x y 0x0 := by
  have hmask : (0xFFF0 : Word) = BitVec.allOnes 4 ++ (BitVec.allOnes 4 ++ (BitVec.allOnes 4 ++ 0#4)) := by decide
  rw [hmask, encodeRegReg, BitVec.and_append, BitVec.and_append, BitVec.and_append, BitVec.and_allOnes,
    BitVec.and_allOnes, BitVec.and_allOnes, BitVec.and_zero]
  rfl

theorem encodeRegByte_zero_of_selector {w : Word} {top : Nibble} {kk : Byte} (h : fieldTop w = top)
    (hkk : fieldKK w = kk) : encodeRegByte top 0x0 kk = w &&& 0xF0FF := by
  rw [← encodeRegByte_and top (fieldX w), encodeRegByte_of_selector h hkk]

theorem encodeRegReg_zero_of_top {w : Word} {top : Nibble} (h : fieldTop w = top) :
    encodeRegReg top (fieldX w) (fieldY w) 0x0 = w &&& 0xFFF0 := by
  rw [← encodeRegReg_and top _ _ (fieldN w), encodeRegReg_of_top h]

theorem decodeFixed_reads {w : Word} (htop : fieldTop w = 0x0) : Reads w (decodeFixed w) := by
  unfold decodeFixed
  split_ifs with hE0 hEE
  · exact ⟨rfl, encodeRegByte_zero_of_selector htop hE0⟩
  · exact ⟨rfl, encodeRegByte_zero_of_selector htop hEE⟩
  · exact .of_encode rfl (by simp [Instr.wf_unknown, unknownFixed, htop, hE0, hEE]) rfl

theorem decodeAlu_reads {w : Word} (htop : fieldTop w = 0x8) : Reads w (decodeAlu w) := by
  have hn := nibble_cases (fieldN w)
  unfold decodeAlu
  split
  case h_10 => exact .of_encode rfl (by simp_all [Instr.wf_unknown, unknownAlu]) rfl
  all_goals exact .of_encode rfl rfl (encodeRegReg_of_selector htop ‹_›)

theorem decodeKey_reads {w : Word} (htop : fieldTop w = 0xE) : Reads w (decodeKey w) := by
  unfold decodeKey
  split_ifs with h9E hA1
  · exact .of_encode rfl rfl (encodeRegByte_of_selector htop h9E)
  · exact .of_encode rfl rfl (encodeRegByte_of_selector htop hA1)
  · exact .of_encode rfl (by simp [Instr.wf_unknown, unknownKey, htop, h9E, hA1]) rfl

theorem decodeMisc_reads {w : Word} (htop : fieldTop w = 0xF) : Reads w (decodeMisc w) := by
  unfold decodeMisc
  split
  case h_10 => exact .of_encode rfl (by simp_all [Instr.wf_unknown, unknownMisc]) rfl
  all_goals exact .of_encode rfl rfl (encodeRegByte_of_selector htop ‹_›)

/-- By the family nibble: case `h_k` is the family `k - 1`, and the line after the sixteen is never reached. -/
theorem decodeWord_reads (w : Word) : Reads w (decodeWord w) := by
  have htop := nibble_cases (fieldTop w)
  unfold decodeWord
  split
  case h_1 h => exact decodeFixed_reads h
  case h_9 h => exact decodeAlu_reads h
  case h_15 h => exact decodeKey_reads h
  case h_16 h => exact decodeMisc_reads h
  case h_6 h | h_10 h => exact ⟨rfl, encodeRegReg_zero_of_top h⟩
  case h_2 h | h_3 h | h_11 h | h_12 h => exact .of_encode rfl rfl (encodeAddr_of_top h)
  case h_4 h | h_5 h | h_7 h | h_8 h | h_13 h => exact .of_encode rfl rfl (encodeRegByte_of_top h)
  case h_14 h => exact .of_encode rfl rfl (encodeRegReg_of_top h)
  case h_17 => simp_all

end Sys2Proof
end

section
/-! PROOFS. The rows of the opcode map against the decoder (R100): the bits a row compares decide the tag, and the
encoder writes the pattern of its row. -/

namespace Sys2Proof

/-- The tag of a word depends on its family nibble and, in the four families that have a selector, on the selector: the
low nibble in 0x8, the low byte in 0x0, 0xE and 0xF. -/
theorem tag_decodeWord_congr {w v : Word} (htop : fieldTop w = fieldTop v)
    (hkk : fieldTop v ∈ [0x0#4, 0xE#4, 0xF#4] → fieldKK w = fieldKK v)
    (hn : fieldTop v = 0x8#4 → fieldN w = fieldN v) : (decodeWord w).tag = (decodeWord v).tag := by
  unfold decodeWord
  rw [htop]
  split
  case h_1 h =>
    rw [decodeFixed, decodeFixed, hkk (by simp [h])]
    split_ifs <;> rfl
  case h_9 h =>
    rw [decodeAlu, decodeAlu, hn h]
    split <;> rfl
  case h_15 h =>
    rw [decodeKey, decodeKey, hkk (by simp [h])]
    split_ifs <;> rfl
  case h_16 h =>
    rw [decodeMisc, decodeMisc, hkk (by simp [h])]
    split <;> rfl
  all_goals rfl

namespace OpcodeRow

theorem selects_iff {row : OpcodeRow} {w : Word} : row.selects w = true ↔ w &&& row.mask = row.pattern := beq_iff_eq

/-- A part of the word that the row's mask compares whole is that part of the row's pattern. -/
theorem extractLsb'_of_selects {row : OpcodeRow} {w : Word} {start len : Nat} (h : row.selects w = true)
    (hmask : row.mask.extractLsb' start len = BitVec.allOnes len) :
    w.extractLsb' start len = row.pattern.extractLsb' start len := by
  rw [← selects_iff.mp h, BitVec.extractLsb'_and, hmask, BitVec.and_allOnes]

/-- A row that selects a word selects it for its tag: the pattern decodes to that tag, and the word agrees with the
pattern on what decides the tag. -/
theorem tag_of_selects {row : OpcodeRow} {w : Word} (hrow : row ∈ opcodeRows) (h : row.selects w = true) :
    (decodeWord w).tag = row.tag := by
  have hpattern : ∀ row ∈ opcodeRows, (decodeWord row.pattern).tag = row.tag := by decide
  have htop : ∀ row ∈ opcodeRows, fieldTop row.mask = BitVec.allOnes 4 := by decide
  have hkk : ∀ row ∈ opcodeRows, fieldTop row.pattern ∈ [0x0#4, 0xE#4, 0xF#4] →
      fieldKK row.mask = BitVec.allOnes 8 := by decide
  have hn : ∀ row ∈ opcodeRows, fieldTop row.pattern = 0x8#4 → fieldN row.mask = BitVec.allOnes 4 := by decide
  rw [← hpattern row hrow]
  exact tag_decodeWord_congr (extractLsb'_of_selects h (htop row hrow))
    (fun hf => extractLsb'_of_selects h (hkk row hrow hf)) fun hf => extractLsb'_of_selects h (hn row hrow hf)

end OpcodeRow

/-- Some row of the opcode map has the tag and selects the word. -/
def HasRow (t : Tag) (w : Word) : Prop := ∃ row ∈ opcodeRows, row.tag = t ∧ row.selects w = true

/-- A row that compares the family nibble alone. -/
theorem hasRow_family {t : Tag} {top : Nibble} (hrow : opcodeRows.contains ⟨t, 0xF000, encodeAddr top 0⟩) (nnn : Addr12) :
    HasRow t (encodeAddr top nnn) := by
  refine ⟨_, List.contains_iff_mem.mp hrow, rfl, OpcodeRow.selects_iff.mpr ?_⟩
  have hmask : (0xF000 : Word) = BitVec.allOnes 4 ++ 0#12 := by decide
  rw [hmask, encodeAddr, BitVec.and_append, BitVec.and_allOnes, BitVec.and_zero]
  rfl

/-- An ALU row: the family nibble and the low nibble. -/
theorem hasRow_alu {t : Tag} {n : Nibble} (hrow : opcodeRows.contains ⟨t, 0xF00F, encodeRegReg 0x8 0 0 n⟩) (x y : Reg) :
    HasRow t (encodeRegReg 0x8 x y n) := by
  refine ⟨_, List.contains_iff_mem.mp hrow, rfl, OpcodeRow.selects_iff.mpr ?_⟩
  have hmask : (0xF00F : Word) = BitVec.allOnes 4 ++ (0#4 ++ (0#4 ++ BitVec.allOnes 4)) := by decide
  rw [hmask, encodeRegReg, BitVec.and_append, BitVec.and_append, BitVec.and_append, BitVec.and_allOnes,
    BitVec.and_allOnes, BitVec.and_zero, BitVec.and_zero]
  rfl

/-- A row that compares the family nibble and the low byte. -/
theorem hasRow_lowByte {t : Tag} {top : Nibble} {kk : Byte}
    (hrow : opcodeRows.contains ⟨t, 0xF0FF, encodeRegByte top 0 kk⟩) (x : Reg) : HasRow t (encodeRegByte top x kk) :=
  ⟨_, List.contains_iff_mem.mp hrow, rfl, OpcodeRow.selects_iff.mpr (encodeRegByte_and top x kk)⟩

/-- The word of an instruction value is selected by the row of its tag, unless the tag is `Unknown`. -/
theorem hasRow_encode {i : Instr} (h : i.tag ≠ .unknown) : HasRow i.tag (encode i) := by
  cases i with
  | clear => exact hasRow_lowByte (top := 0x0) (kk := 0xE0) rfl 0x0
  | ret => exact hasRow_lowByte (top := 0x0) (kk := 0xEE) rfl 0x0
  | absJump | call | setIndex | offsetJump => exact hasRow_family rfl _
  | skipEqVal | skipNeqVal | setVal | addVal | rand => exact hasRow_family rfl _
  | skipEqReg | skipNeqReg | draw => exact hasRow_family rfl _
  | mov | or | and | xor | add | sub | shr | subN | shl => exact hasRow_alu rfl _ _
  | skipKeyPressed | skipKeyNotPressed => exact hasRow_lowByte rfl _
  | getDelay | waitKey | setDelay | setSound | addIndex | setIndexFont | storeBcd | dumpRegs | loadRegs =>
    exact hasRow_lowByte rfl _
  | unknown => exact absurd rfl h

/-- Every word that does not decode to `Unknown` is selected by the row of its tag: what the row compares is
significant, so it reads the same in the decoded value's own word. -/
theorem hasRow_decodeWord {w : Word} (h : (decodeWord w).tag ≠ .unknown) : HasRow (decodeWord w).tag w := by
  have hsig : ∀ row ∈ opcodeRows, significantBits row.tag &&& row.mask = row.mask := by decide
  obtain ⟨row, hrow, htag, hsel⟩ := hasRow_encode h
  refine ⟨row, hrow, htag, OpcodeRow.selects_iff.mpr ?_⟩
  rw [OpcodeRow.selects_iff, (decodeWord_reads w).encode_eq, ← htag, BitVec.and_assoc, hsig row hrow] at hsel
  exact hsel

theorem opcodeRows_tag_ne_unknown {row : OpcodeRow} (hrow : row ∈ opcodeRows) : row.tag ≠ .unknown := by
  revert row
  decide

theorem opcodeRows_pairwise_tag : opcodeRows.Pairwise (fun a b => a.tag ≠ b.tag) := by decide

theorem opcodeRows_eq_of_tag {a b : OpcodeRow} (ha : a ∈ opcodeRows) (hb : b ∈ opcodeRows) (h : a.tag = b.tag) :
    a = b :=
  List.inj_on_of_nodup_map (List.pairwise_map.mpr opcodeRows_pairwise_tag) ha hb h

/-- A row selects exactly the words that decode to its tag. -/
theorem OpcodeRow.selects_iff_tag {row : OpcodeRow} {w : Word} (hrow : row ∈ opcodeRows) :
    row.selects w = true ↔ (decodeWord w).tag = row.tag := by
  refine ⟨OpcodeRow.tag_of_selects hrow, fun htag => ?_⟩
  obtain ⟨row', hrow', htag', hsel⟩ := hasRow_decodeWord (htag ▸ opcodeRows_tag_ne_unknown hrow)
  exact opcodeRows_eq_of_tag hrow' hrow (htag'.trans htag) ▸ hsel

/-- A decoded `Unknown` carries the word itself. -/
theorem decodeWord_eq_unknown_of_tag {w : Word} (h : (decodeWord w).tag = .unknown) : decodeWord w = .unknown w := by
  have hw := (decodeWord_reads w).encode_eq
  cases hi : decodeWord w with
  | unknown w' =>
    rw [hi] at hw
    exact congrArg Instr.unknown (hw.trans BitVec.and_allOnes)
  | _ => rw [hi] at h; cases h

/-- `Unknown` is what no row selects (R115). -/
theorem decodeWord_eq_unknown_iff {w : Word} :
    decodeWord w = .unknown w ↔ ∀ row ∈ opcodeRows, row.selects w = false := by
  constructor
  · intro h row hrow
    by_contra hsel
    have htag := OpcodeRow.tag_of_selects hrow (Bool.not_eq_false _ ▸ hsel)
    rw [h] at htag
    exact opcodeRows_tag_ne_unknown hrow htag.symm
  · intro h
    apply decodeWord_eq_unknown_of_tag
    by_contra hne
    obtain ⟨row, hrow, -, hsel⟩ := hasRow_decodeWord hne
    exact Bool.false_ne_true ((h row hrow).symm.trans hsel)

end Sys2Proof
end

section
/-! PROOFS. The statements of 30_encoding.md, settled. -/

namespace Sys2Proof.Proofs

/-- Settles O1. -/
theorem decodeOfEncodeIsIdentity : Obligations.DecodeOfEncodeIsIdentity :=
  fun _ h => decodeWord_encode h

/-- Settles O2. -/
theorem encodeOfDecodeKeepsSignificantBits : Obligations.EncodeOfDecodeKeepsSignificantBits :=
  fun w => (decodeWord_reads w).encode_eq

/-- Settles O3. -/
theorem decodedInstructionIsWellFormed : Obligations.DecodedInstructionIsWellFormed :=
  fun w => (decodeWord_reads w).wf

/-- Settles O4: two rows cannot select one word, since it would decode to both their tags. -/
theorem opcodeRowsDisjointAndDecoderAgrees : Obligations.OpcodeRowsDisjointAndDecoderAgrees := by
  refine ⟨rfl, ?_, fun w row hrow => OpcodeRow.selects_iff_tag hrow, fun w => decodeWord_eq_unknown_iff⟩
  refine opcodeRows_pairwise_tag.imp_of_mem fun ha hb hne w hsel => hne ?_
  exact (OpcodeRow.tag_of_selects ha hsel.1).symm.trans (OpcodeRow.tag_of_selects hb hsel.2)

/-- Settles O6: the four words are the encoder's own. -/
theorem addressFamilyWordsDecode : Obligations.AddressFamilyWordsDecode := fun nnn =>
  ⟨decodeWord_encode (i := .absJump nnn) rfl, decodeWord_encode (i := .call nnn) rfl,
    decodeWord_encode (i := .setIndex nnn) rfl, decodeWord_encode (i := .offsetJump nnn) rfl⟩

/-- Settles O7: the five words are the encoder's own. -/
theorem registerImmediateFamilyWordsDecode : Obligations.RegisterImmediateFamilyWordsDecode := fun x kk =>
  ⟨decodeWord_encode (i := .skipEqVal x kk) rfl, decodeWord_encode (i := .skipNeqVal x kk) rfl,
    decodeWord_encode (i := .setVal x kk) rfl, decodeWord_encode (i := .addVal x kk) rfl,
    decodeWord_encode (i := .rand x kk) rfl⟩

/-- Settles O8. -/
theorem registerRegisterFamilyIgnoresLowNibble : Obligations.RegisterRegisterFamilyIgnoresLowNibble :=
  fun x y n => ⟨decodeWord_regReg_five x y n, decodeWord_regReg_nine x y n⟩

/-- Settles O9: the nine words are the encoder's own, and the other seven lie in region (b) of the Unknown space. -/
theorem aluFamilyWordsDecode : Obligations.AluFamilyWordsDecode := fun x y =>
  ⟨decodeWord_encode (i := .mov x y) rfl, decodeWord_encode (i := .or x y) rfl,
    decodeWord_encode (i := .and x y) rfl, decodeWord_encode (i := .xor x y) rfl,
    decodeWord_encode (i := .add x y) rfl, decodeWord_encode (i := .sub x y) rfl,
    decodeWord_encode (i := .shr x y) rfl, decodeWord_encode (i := .subN x y) rfl,
    decodeWord_encode (i := .shl x y) rfl, fun n hn =>
      have hregion : unknownAlu (fieldTop (encodeRegReg 0x8 x y n)) (fieldN (encodeRegReg 0x8 x y n)) = true := by
        rw [fieldTop_regReg, fieldN_regReg, unknownAlu, List.contains_iff_mem.mpr hn]
        rfl
      decodeWord_of_unknownAlu hregion⟩

/-- Settles O10: the word is the encoder's own. -/
theorem drawFamilyWordsDecode : Obligations.DrawFamilyWordsDecode :=
  fun x y n => decodeWord_encode (i := .draw x y n) rfl

end Sys2Proof.Proofs
end

section
/-! PROOFS. Runs that stay where they are. -/

namespace Sys2Proof.Machine

/-- A run from a state that steps to itself stays there, however many steps it takes. -/
theorem core_run_of_step_self {s : State} (h : step s = .next s) (k : Nat) :
    Sys2Proof.core.run k s = .next s := by
  have hcore : Sys2Proof.core.step s = .next s := h
  induction k with
  | zero => rfl
  | succ k ih => simpa only [Host.Core.run, hcore] using ih

end Sys2Proof.Machine
end

section
/-! PROOFS. The statements of 40_tick_cycle.md, settled. -/

namespace Sys2Proof.Proofs

open Sys2Proof.Machine

/-- Settles O14: every instruction has one of the effects of `Effect`, and a step that runs none stands still or latches
a fetch fault. -/
theorem everyStepAnswersNextState : Obligations.EveryStepAnswersNextState := by
  refine ⟨fun i s => ?_, step_total⟩
  obtain ⟨t, ht, -⟩ := exec_effect i s
  exact ⟨t, ht⟩

/-- Settles O11: both bytes lie inside memory, so the fetch reads them and the step runs what they decode to. -/
theorem stepRunsDecodedInstruction : Obligations.StepRunsDecodedInstruction := by
  intro s hh hpc
  have hfetched : s.fetched = some (decodeWord (s.mem.peek s.pc.toNat ++ s.mem.peek (s.pc.toNat + 1))) := by
    rw [State.fetched, State.fetch_inside hpc, Option.map_some, wordOfBytes]
  exact step_of_fetched hh hfetched

/-- Settles O13: the halted core steps to itself, so a run of any length stays there. -/
theorem haltedCoreNeverChanges : Obligations.HaltedCoreNeverChanges := fun _ hs =>
  ⟨step_of_halted hs, core_run_of_step_self (step_of_halted hs)⟩

end Sys2Proof.Proofs
end

section
/-! PROOFS. What the state operations the fixed instructions are written with leave unchanged, and what `Clear` and
`Call` answer. -/

namespace Sys2Proof.Machine

/-! ## Frames -/

/-- One change after another: what neither lists stays as it was. -/
theorem OnlyChanges.trans {r₁ r₂ : List Reg} {p₁ p₂ : List Part} {s t u : State}
    (h₁ : OnlyChanges r₁ p₁ s t) (h₂ : OnlyChanges r₂ p₂ t u) : OnlyChanges (r₁ ++ r₂) (p₁ ++ p₂) s u := by
  refine ⟨fun r hr => ?_, fun p hp => ?_⟩
  · rw [List.mem_append, not_or] at hr
    exact (h₂.1 r hr.2).trans (h₁.1 r hr.1)
  · rw [List.mem_append, not_or] at hp
    have hst := h₁.2 p hp.1
    have htu := h₂.2 p hp.2
    cases p with
    | mem => exact fun a => (htu a).trans (hst a)
    | _ => exact Eq.trans htu hst

theorem OnlyChanges.setFb (s : State) (g : Framebuffer) : OnlyChanges [] [.fb] s (s.setFb g) :=
  ⟨fun _ _ => rfl, fun p hp => by cases p <;> simp [Part.Same] at hp ⊢⟩

theorem OnlyChanges.render (s : State) (q : RenderRequest) :
    OnlyChanges [] [.history, .inputs, .halt] s (s.render q) :=
  ⟨fun _ _ => rfl, fun p hp => by cases p <;> simp [Part.Same] at hp ⊢⟩

/-- A new stack and a new program counter: what `Call` and `Return` (R32) change. -/
theorem OnlyChanges.setStackPc (s : State) (stack : List Word) (v : Word) :
    OnlyChanges [] [.pc, .stack] s (({ s with stack := stack } : State).setPc v) :=
  ⟨fun _ _ => rfl, fun p hp => by cases p <;> simp [Part.Same] at hp ⊢⟩

/-! ## Answers -/

theorem exec_clear (s : State) : exec .clear s = .next ((s.setFb Framebuffer.blank).render .clearOutput) := rfl

theorem exec_call (nnn : Addr12) (s : State) :
    exec (.call nnn) s = .next ((s.push s.pc).setPc (addrOperand nnn)) := rfl

/-- A `Call` leaves the program counter it ran with on top of the old stack (R151). -/
theorem stack_of_exec_call {nnn : Addr12} {s t : State} (h : exec (.call nnn) s = .next t) :
    t.stack = s.pc :: s.stack := by
  rw [exec_call, Host.Outcome.next.injEq] at h
  rw [← h, State.setPc_stack, State.push_stack]

end Sys2Proof.Machine
end

section
/-! PROOFS. The statements of 41_fixed.md, settled. -/

namespace Sys2Proof.Proofs

open Sys2Proof.Machine

/-- Settles O19: the blank framebuffer, then the request; the surface's answer decides the latch alone. -/
theorem clearBlanksScreenAndRequestsErase : Obligations.ClearBlanksScreenAndRequestsErase := by
  intro s
  refine ⟨_, exec_clear s, Framebuffer.pixel_blank, rfl, rfl, ?_, (OnlyChanges.setFb s _).trans (.render _ _)⟩
  rw [State.render_halt, State.setFb_inputs, State.setFb_halt]
  simp only [beq_iff_eq]

/-- Settles O20: the two cases of a pop. -/
theorem returnPopsOrUnderflows : Obligations.ReturnPopsOrUnderflows :=
  ⟨fun s v rest hs => ⟨_, exec_ret_cons hs, rfl, rfl, .setStackPc s rest v⟩,
    fun s hs => ⟨_, exec_ret_nil hs, rfl, .setHalt s _⟩⟩

/-- Settles O40: the stack the `Call` left has its return address on top, and the `Return` pops it. -/
theorem callThenReturnResumesAfterTheCall : Obligations.CallThenReturnResumesAfterTheCall := by
  intro nnn s t u hcall hstack
  have htop : u.stack = s.pc :: s.stack := hstack.trans (stack_of_exec_call hcall)
  exact ⟨_, exec_ret_cons htop, rfl, rfl⟩

end Sys2Proof.Proofs
end

section
/-! PROOFS. What the 12-bit-address instructions answer beside `Call`, and what they leave unchanged. -/

namespace Sys2Proof.Machine

/-! ## Frames -/

theorem OnlyChanges.setPc (s : State) (v : Word) : OnlyChanges [] [.pc] s (s.setPc v) :=
  ⟨fun _ _ => rfl, fun p hp => by cases p <;> simp [Part.Same] at hp ⊢⟩

theorem OnlyChanges.setIndex (s : State) (v : Word) : OnlyChanges [] [.index] s (s.setIndex v) :=
  ⟨fun _ _ => rfl, fun p hp => by cases p <;> simp [Part.Same] at hp ⊢⟩

/-! ## Answers -/

theorem exec_absJump (nnn : Addr12) (s : State) : exec (.absJump nnn) s = .next (s.setPc (addrOperand nnn)) :=
  exec_of_jump rfl s

theorem exec_setIndex (nnn : Addr12) (s : State) : exec (.setIndex nnn) s = .next (s.setIndex (addrOperand nnn)) := rfl

theorem exec_offsetJump (nnn : Addr12) (s : State) :
    exec (.offsetJump nnn) s = .next (s.setPc (offsetTarget s nnn)) :=
  exec_of_jump rfl s

end Sys2Proof.Machine
end

section
/-! PROOFS. The statements of 42_address.md, settled. -/

namespace Sys2Proof.Proofs

open Sys2Proof.Machine

/-- Settles O21: the zero-extended operand is the same number. -/
theorem absJumpSetsPc : Obligations.AbsJumpSetsPc := fun nnn s =>
  ⟨_, exec_absJump nnn s, addrOperand_toNat nnn, .setPc s _⟩

/-- Settles O22: the push makes no demand on the stack, and it reads `pc` before the jump writes it. -/
theorem callPushesReturnAddressAndJumps : Obligations.CallPushesReturnAddressAndJumps := fun nnn s =>
  ⟨_, exec_call nnn s, stack_of_exec_call (exec_call nnn s), addrOperand_toNat nnn, .setStackPc s (s.pc :: s.stack) _⟩

/-- Settles O23: the zero-extended operand is the same number. -/
theorem setIndexWritesIndex : Obligations.SetIndexWritesIndex := fun nnn s =>
  ⟨_, exec_setIndex nnn s, addrOperand_toNat nnn, .setIndex s _⟩

/-- Settles O24: a 12-bit and an 8-bit number add up inside 16 bits, so the sum never wraps. -/
theorem offsetJumpAddsRegisterZero : Obligations.OffsetJumpAddsRegisterZero := fun nnn s =>
  ⟨_, exec_offsetJump nnn s, offsetTarget_toNat s nnn, .setPc s _⟩

end Sys2Proof.Proofs
end

section
/-! PROOFS. What the register-and-immediate instructions answer, and what the draw of `Rand` leaves unchanged. -/

namespace Sys2Proof.Machine

/-! ## The draw of `Rand` -/

theorem OnlyChanges.afterRand (s : State) : OnlyChanges [] [.inputs] s s.afterRand :=
  ⟨fun _ _ => rfl, fun p hp => by cases p <;> simp [Part.Same] at hp ⊢⟩

/-- A value with no bit outside the mask passes it unchanged. -/
theorem and_mask_eq_self {v mask : Byte} (h : v &&& ~~~mask = 0) : v &&& mask = v := by
  ext b hb
  have hbit : v[b] = true → mask[b] = true := by simpa [hb] using congrArg (·.getLsbD b) h
  simpa using hbit

/-! ## Answers -/

theorem exec_skipEqVal (x : Reg) (kk : Byte) (s : State) :
    exec (.skipEqVal x kk) s = .next (s.setPc (if s.reg x = kk then s.pc + 2 else s.pc)) :=
  exec_of_jump rfl s

theorem exec_skipNeqVal (x : Reg) (kk : Byte) (s : State) :
    exec (.skipNeqVal x kk) s = .next (s.setPc (if s.reg x = kk then s.pc else s.pc + 2)) :=
  exec_of_jump rfl s

theorem exec_setVal (x : Reg) (kk : Byte) (s : State) : exec (.setVal x kk) s = .next (s.setReg x kk) := rfl

theorem exec_addVal (x : Reg) (kk : Byte) (s : State) :
    exec (.addVal x kk) s = .next (s.setReg x (s.reg x + kk)) := rfl

theorem exec_rand (x : Reg) (kk : Byte) (s : State) :
    exec (.rand x kk) s = .next (s.afterRand.setReg x (s.inputs.nextRand &&& kk)) := rfl

end Sys2Proof.Machine
end

section
/-! PROOFS. The statements of 43_reg_imm.md, settled. -/

namespace Sys2Proof.Proofs

open Sys2Proof.Machine

/-- Settles O25: each skip writes `pc` alone, and the two pick opposite branches of one condition. -/
theorem immediateSkipsMovePcOnlyOnTheirCondition : Obligations.ImmediateSkipsMovePcOnlyOnTheirCondition :=
  fun x kk s => ⟨⟨_, exec_skipEqVal x kk s, rfl, .setPc s _⟩, ⟨_, exec_skipNeqVal x kk s, rfl, .setPc s _⟩⟩

/-- Settles O27. -/
theorem setValWritesImmediate : Obligations.SetValWritesImmediate := fun x kk s =>
  ⟨_, exec_setVal x kk s, s.setReg_reg_self x kk, .setReg s x kk⟩

/-- Settles O28: the sum of two bytes is the sum of the numbers modulo 256, and only the destination is written. -/
theorem addValWrapsWithoutFlag : Obligations.AddValWrapsWithoutFlag := by
  intro x kk s
  refine ⟨_, exec_addVal x kk s, ?_, .setReg s x _⟩
  rw [State.setReg_reg_self, BitVec.toNat_add]

/-- Settles O29: the draw consumes an input before the destination is written, and a value inside the mask is reached
by drawing that value. -/
theorem randMasksAFreeByte : Obligations.RandMasksAFreeByte := by
  refine ⟨fun x kk s => ?_, fun x kk v s hv => ?_⟩
  · exact ⟨_, exec_rand x kk s, State.setReg_reg_self _ x _, rfl, (OnlyChanges.afterRand s).trans (.setReg _ x _)⟩
  · refine ⟨v, _, exec_rand x kk (s.offer v .ok), ?_⟩
    rw [State.setReg_reg_self, State.offer_nextRand, and_mask_eq_self hv]

end Sys2Proof.Proofs
end

section
/-! PROOFS. What the register-and-register skips answer. -/

namespace Sys2Proof.Machine

/-! ## Answers -/

theorem exec_skipEqReg (x y : Reg) (s : State) :
    exec (.skipEqReg x y) s = .next (s.setPc (if s.reg x = s.reg y then s.pc + 2 else s.pc)) :=
  exec_of_jump rfl s

theorem exec_skipNeqReg (x y : Reg) (s : State) :
    exec (.skipNeqReg x y) s = .next (s.setPc (if s.reg x = s.reg y then s.pc else s.pc + 2)) :=
  exec_of_jump rfl s

end Sys2Proof.Machine
end

section
/-! PROOFS. The statement of 44_reg_reg.md, settled. -/

namespace Sys2Proof.Proofs

open Sys2Proof.Machine

/-- Settles O26: both skips write `pc` alone and test one equality, from which they pick opposite branches; with X = Y
the equality is reflexive. -/
theorem registerSkipsMovePcOnlyOnTheirCondition : Obligations.RegisterSkipsMovePcOnlyOnTheirCondition :=
  fun x y s => ⟨⟨_, exec_skipEqReg x y s, rfl, .setPc s _⟩, ⟨_, exec_skipNeqReg x y s, rfl, .setPc s _⟩⟩

end Sys2Proof.Proofs
end

section
/-! PROOFS. What the ALU instructions answer, what their two writes leave in the destination and in the flag register,
and that they write nothing else. -/

namespace Sys2Proof.Machine

/-! ## Frames -/

theorem OnlyChanges.mono_regs {regs regs' : List Reg} {parts : List Part} {s t : State}
    (h : OnlyChanges regs parts s t) (hsub : regs ⊆ regs') : OnlyChanges regs' parts s t :=
  ⟨fun r hr => h.1 r fun hmem => hr (hsub hmem), h.2⟩

theorem OnlyChanges.setResultThenFlag (s : State) (x : Reg) (v f : Byte) :
    OnlyChanges [x, 15] [] s (s.setResultThenFlag x v f) :=
  (OnlyChanges.setReg s x v).trans (.setReg _ flagReg f)

/-- The destination is written twice, before and after the flag. -/
theorem OnlyChanges.copyThenShift (x y : Reg) (flag shift : Byte → Byte) (s : State) :
    OnlyChanges [x, 15] [] s (copyThenShift x y flag shift s) :=
  (((OnlyChanges.setReg s x _).trans (.setReg _ flagReg _)).trans (.setReg _ x _)).mono_regs (by simp)

/-! ## The result and the flag -/

@[simp] theorem State.setResultThenFlag_reg_flag (s : State) (x : Reg) (v f : Byte) :
    (s.setResultThenFlag x v f).reg 15 = f :=
  State.setReg_reg_self _ flagReg f

theorem State.setResultThenFlag_reg_dest (s : State) {x : Reg} (v f : Byte) (hx : x ≠ 15) :
    (s.setResultThenFlag x v f).reg x = v := by
  rw [State.setResultThenFlag_reg, if_neg hx, if_pos rfl]

theorem carryFlag_eq (a b : Byte) : carryFlag a b = if a.toNat + b.toNat > 255 then 1 else 0 := by
  simp only [carryFlag, flagOf, decide_eq_true_eq]

theorem borrowFlag_eq (a b : Byte) : borrowFlag a b = if a.toNat < b.toNat then 1 else 0 := by
  simp only [borrowFlag, flagOf, decide_eq_true_eq]

theorem byte_sub_toNat (a b : Byte) : (a - b).toNat = (a.toNat + 256 - b.toNat) % 256 := by
  have hb := b.isLt
  rw [BitVec.toNat_sub]
  omega

/-- A difference and its borrow, in whichever order the operands were taken (R185, R187, R190). -/
theorem State.setDifferenceThenBorrow_spec (s : State) (x : Reg) (a b : Byte) :
    let t := s.setResultThenFlag x (a - b) (borrowFlag a b)
    (x ≠ 15 → (t.reg x).toNat = (a.toNat + 256 - b.toNat) % 256) ∧
    t.reg 15 = (if a.toNat < b.toNat then 1 else 0) ∧ OnlyChanges [x, 15] [] s t := by
  refine ⟨fun hx => ?_, ?_, .setResultThenFlag s x _ _⟩
  · rw [State.setResultThenFlag_reg_dest s _ _ hx, byte_sub_toNat]
  · rw [State.setResultThenFlag_reg_flag, borrowFlag_eq]

/-! ## The shifts -/

theorem copyThenShift_reg_dest {x : Reg} (y : Reg) (flag shift : Byte → Byte) (s : State) (hx : x ≠ 15) :
    (copyThenShift x y flag shift s).reg x = shift (s.reg y) := by
  rw [copyThenShift_reg y flag shift s hx, if_pos rfl]

theorem copyThenShift_reg_flag_of_ne {x : Reg} (y : Reg) (flag shift : Byte → Byte) (s : State) (hx : x ≠ 15) :
    (copyThenShift x y flag shift s).reg 15 = flag (s.reg y) := by
  rw [copyThenShift_reg y flag shift s hx, if_neg hx.symm, if_pos rfl]

/-- Into the flag register the shift moves the one bit of the flag out (R186). -/
theorem shrFlag_shiftRight_one (v : Byte) : shrFlag v >>> 1 = 0 := by
  revert v; decide

/-- Into the flag register the shift moves the one bit of the flag out (R188). -/
theorem shlFlag_shiftLeft_one (v : Byte) : shlFlag v <<< 1 = 0 := by
  revert v; decide

/-! ## Answers -/

theorem exec_mov (x y : Reg) (s : State) : exec (.mov x y) s = .next (s.setReg x (s.reg y)) := rfl

theorem exec_or (x y : Reg) (s : State) : exec (.or x y) s = .next (s.setReg x (s.reg x ||| s.reg y)) := rfl

theorem exec_and (x y : Reg) (s : State) : exec (.and x y) s = .next (s.setReg x (s.reg x &&& s.reg y)) := rfl

theorem exec_xor (x y : Reg) (s : State) : exec (.xor x y) s = .next (s.setReg x (s.reg x ^^^ s.reg y)) := rfl

theorem exec_add (x y : Reg) (s : State) :
    exec (.add x y) s = .next (s.setResultThenFlag x (s.reg x + s.reg y) (carryFlag (s.reg x) (s.reg y))) := rfl

theorem exec_sub (x y : Reg) (s : State) :
    exec (.sub x y) s = .next (s.setResultThenFlag x (s.reg x - s.reg y) (borrowFlag (s.reg x) (s.reg y))) := rfl

theorem exec_subN (x y : Reg) (s : State) :
    exec (.subN x y) s = .next (s.setResultThenFlag x (s.reg y - s.reg x) (borrowFlag (s.reg y) (s.reg x))) := rfl

theorem exec_shr (x y : Reg) (s : State) :
    exec (.shr x y) s = .next (copyThenShift x y shrFlag (· >>> 1) s) := rfl

theorem exec_shl (x y : Reg) (s : State) :
    exec (.shl x y) s = .next (copyThenShift x y shlFlag (· <<< 1) s) := rfl

end Sys2Proof.Machine
end

section
/-! PROOFS. The statements of 45_alu.md, settled. -/

namespace Sys2Proof.Proofs

open Sys2Proof.Machine

/-- Settles O30: each of the four is one register write, so the flag register is written only as the destination. -/
theorem moveAndLogicWriteOnlyTheirDestination : Obligations.MoveAndLogicWriteOnlyTheirDestination := by
  intro x y s
  refine ⟨⟨_, exec_mov x y s, s.setReg_reg_self x _, .setReg s x _⟩, ⟨_, exec_or x y s, fun b => ?_, .setReg s x _⟩,
    ⟨_, exec_and x y s, fun b => ?_, .setReg s x _⟩, ⟨_, exec_xor x y s, fun b => ?_, .setReg s x _⟩⟩
  · rw [State.setReg_reg_self, BitVec.getLsbD_or]
  · rw [State.setReg_reg_self, BitVec.getLsbD_and]
  · rw [State.setReg_reg_self, BitVec.getLsbD_xor, Bool.bne_eq_xor]

/-- Settles O31: the sum of two bytes is the sum of the numbers modulo 256, and the carry is written over it when X
is 15. -/
theorem addWritesSumThenCarry : Obligations.AddWritesSumThenCarry := by
  intro x y s
  refine ⟨_, exec_add x y s, fun hx => ?_, ?_, .setResultThenFlag s x _ _⟩
  · rw [State.setResultThenFlag_reg_dest s _ _ hx, BitVec.toNat_add]
  · rw [State.setResultThenFlag_reg_flag, carryFlag_eq]

/-- Settles O32: x[X] - x[Y] and its borrow. -/
theorem subWritesDifferenceThenBorrow : Obligations.SubWritesDifferenceThenBorrow := fun x y s =>
  ⟨_, exec_sub x y s, s.setDifferenceThenBorrow_spec x (s.reg x) (s.reg y)⟩

/-- Settles O33: x[Y] - x[X] and its borrow, the operands of `Sub` exchanged. -/
theorem subNWritesDifferenceThenBorrow : Obligations.SubNWritesDifferenceThenBorrow := fun x y s =>
  ⟨_, exec_subN x y s, s.setDifferenceThenBorrow_spec x (s.reg y) (s.reg x)⟩

/-- Settles O34: with X = 15 the flag overwrites the copy, and it is the flag that is shifted, to 0. -/
theorem shrCopiesThenShifts : Obligations.ShrCopiesThenShifts := by
  intro x y s
  refine ⟨_, exec_shr x y s, fun hx => ⟨?_, ?_⟩, ?_, .copyThenShift x y _ _ s⟩
  · rw [copyThenShift_reg_dest y _ _ s hx, shiftRight_one_toNat]
  · rw [copyThenShift_reg_flag_of_ne y _ _ s hx, shrFlag_toNat]
  · rintro rfl
    rw [copyThenShift_reg_flag, if_pos rfl, shrFlag_shiftRight_one]

/-- Settles O35: with X = 15 the flag overwrites the copy, and the shift moves its raw bit 7 out, to 0. -/
theorem shlCopiesThenShifts : Obligations.ShlCopiesThenShifts := by
  intro x y s
  refine ⟨_, exec_shl x y s, fun hx => ⟨?_, ?_⟩, ?_, .copyThenShift x y _ _ s⟩
  · rw [copyThenShift_reg_dest y _ _ s hx, shiftLeft_one_toNat]
  · rw [copyThenShift_reg_flag_of_ne y _ _ s hx, shlFlag_eq]
  · rintro rfl
    rw [copyThenShift_reg_flag, if_pos rfl, shlFlag_shiftLeft_one]

end Sys2Proof.Proofs
end

section
/-! PROOFS. The collision bit of the blitter, the OR over the pixels under the sprite: no pixel lies under two of its
rows, so a row meets the pixels the rows before it left as they were in the old grid (R206). -/

namespace Sys2Proof.Machine

theorem not_collides_nil (fb : Framebuffer) (sx sy : Nat) : ¬ Collides fb [] sx sy := by
  rintro ⟨r, c, -, -, -, hbit⟩
  exact Bool.false_ne_true ((spriteBit_nil sx sy r c).symm.trans hbit)

/-- The one row of such a sprite collides on the grid row it lies on. -/
theorem collides_singleton (fb : Framebuffer) (row : Byte) (sx : Nat) {py : Nat} (hpy : py < 32) :
    Collides fb [row] sx py ↔
      ∃ c, sx ≤ c ∧ c < sx + 8 ∧ c ≤ 63 ∧ row.getLsbD (7 - (c - sx)) = true ∧ fb.pixel py c = true := by
  simp only [Collides, spriteBit_singleton]
  constructor
  · rintro ⟨r, c, -, hc, hlit, rfl, hlo, hhi, hbit⟩
    exact ⟨c, hlo, hhi, by omega, hbit, hlit⟩
  · rintro ⟨c, hlo, hhi, hc, hbit, hlit⟩
    exact ⟨py, c, hpy, by omega, hlit, rfl, hlo, hhi, hbit⟩

theorem not_collides_singleton_below (fb : Framebuffer) (row : Byte) (sx : Nat) {py : Nat} (hpy : 31 < py) :
    ¬ Collides fb [row] sx py := by
  rintro ⟨r, c, hr, -, -, hbit⟩
  obtain ⟨rfl, -⟩ := (spriteBit_singleton row sx py r c).mp hbit
  omega

theorem blitRow_collision (sx py : Nat) (row : Byte) (acc : Blit) :
    (blitRow sx py row acc).collision = true ↔ acc.collision = true ∨ Collides acc.grid [row] sx py := by
  by_cases hpy : py ≤ 31
  · rw [blitRow_inside sx row acc hpy, (blitBits_spec sx py row (by omega) 8 le_rfl acc).2,
      collides_singleton _ _ _ (by omega)]
  · rw [blitRow_below sx row acc (by omega), or_iff_left (not_collides_singleton_below _ row sx (by omega))]

/-- No row of the plane meets both the top row of a sprite and the rest of it. -/
theorem spriteBit_top_of_rest {row : Byte} {rest : List Byte} {sx sy r c : Nat}
    (h : spriteBit rest sx (sy + 1) r c = true) : spriteBit [row] sx sy r c = false := by
  refine Bool.eq_false_of_not_eq_true fun htop => ?_
  obtain ⟨rfl, -⟩ := (spriteBit_singleton row sx sy r c).mp htop
  simp [spriteBit] at h

/-- A sprite collides with its top row, or with the rest of it on the grid that the top row left. -/
theorem collides_cons (row : Byte) (rest : List Byte) (sx sy : Nat) (acc : Blit) :
    Collides acc.grid (row :: rest) sx sy ↔
      Collides acc.grid [row] sx sy ∨ Collides (blitRow sx sy row acc).grid rest sx (sy + 1) := by
  have hkept {r c : Nat} (hr : r < 32) (hc : c < 64) (hrest : spriteBit rest sx (sy + 1) r c = true) :
      (blitRow sx sy row acc).grid.pixel r c = acc.grid.pixel r c := by
    rw [blitRow_pixel sx sy row acc hr hc, spriteBit_top_of_rest hrest, Bool.bne_false]
  constructor
  · rintro ⟨r, c, hr, hc, hlit, hbit⟩
    by_cases hrest : spriteBit rest sx (sy + 1) r c = true
    · exact .inr ⟨r, c, hr, hc, (hkept hr hc hrest).trans hlit, hrest⟩
    · rw [spriteBit_cons, Bool.eq_false_of_not_eq_true hrest, Bool.bne_false] at hbit
      exact .inl ⟨r, c, hr, hc, hlit, hbit⟩
  · rintro (⟨r, c, hr, hc, hlit, htop⟩ | ⟨r, c, hr, hc, hlit, hrest⟩)
    · refine ⟨r, c, hr, hc, hlit, ?_⟩
      have hrest : spriteBit rest sx (sy + 1) r c = false :=
        Bool.eq_false_of_not_eq_true fun h => Bool.false_ne_true ((spriteBit_top_of_rest h).symm.trans htop)
      rw [spriteBit_cons, htop, hrest, Bool.bne_false]
    · refine ⟨r, c, hr, hc, (hkept hr hc hrest).symm.trans hlit, ?_⟩
      rw [spriteBit_cons, spriteBit_top_of_rest hrest, hrest, Bool.bne_true, Bool.not_false]

theorem blitRows_collision (sx : Nat) (rows : List Byte) (sy : Nat) (acc : Blit) :
    (blitRows sx sy rows acc).collision = true ↔ acc.collision = true ∨ Collides acc.grid rows sx sy := by
  induction rows generalizing sy acc with
  | nil => rw [blitRows, or_iff_left (not_collides_nil acc.grid sx sy)]
  | cons row rest ih => rw [blitRows, ih, blitRow_collision, collides_cons row rest, or_assoc]

theorem blit_pixel (fb : Framebuffer) (rows : List Byte) (sx sy : Nat) {r c : Nat} (hr : r < 32) (hc : c < 64) :
    (blit fb sx sy rows).grid.pixel r c = (fb.pixel r c != spriteBit rows sx sy r c) :=
  blitRows_pixel sx rows sy ⟨fb, false⟩ hr hc

theorem blit_collision (fb : Framebuffer) (rows : List Byte) (sx sy : Nat) :
    (blit fb sx sy rows).collision = true ↔ Collides fb rows sx sy :=
  (blitRows_collision sx rows sy ⟨fb, false⟩).trans (or_iff_right Bool.false_ne_true)

theorem not_collides_blank (rows : List Byte) (sx sy : Nat) : ¬ Collides Framebuffer.blank rows sx sy := by
  rintro ⟨r, c, -, -, hlit, -⟩
  exact Bool.false_ne_true ((Framebuffer.pixel_blank r c).symm.trans hlit)

/-- A sprite composited twice at one place gives the old grid back. -/
theorem blit_blit_grid (fb : Framebuffer) (rows : List Byte) (sx sy : Nat) :
    (blit (blit fb sx sy rows).grid sx sy rows).grid = fb :=
  Framebuffer.ext_pixel fun r c hr hc => by
    rw [blit_pixel _ _ _ _ hr hc, blit_pixel _ _ _ _ hr hc, Bool.bne_assoc, bne_self_eq_false, Bool.bne_false]

/-- The second time a sprite collides under the 1 bits that the first time lit a pixel. -/
theorem collides_blit (fb : Framebuffer) (rows : List Byte) (sx sy : Nat) :
    Collides (blit fb sx sy rows).grid rows sx sy ↔
      ∃ r c, r < 32 ∧ c < 64 ∧ fb.pixel r c = false ∧ spriteBit rows sx sy r c = true := by
  have hlit {r c : Nat} (hr : r < 32) (hc : c < 64) (hbit : spriteBit rows sx sy r c = true) :
      (blit fb sx sy rows).grid.pixel r c = true ↔ fb.pixel r c = false := by
    rw [blit_pixel _ _ _ _ hr hc, hbit, Bool.bne_true, Bool.not_eq_true']
  constructor
  · rintro ⟨r, c, hr, hc, hpixel, hbit⟩
    exact ⟨r, c, hr, hc, (hlit hr hc hbit).mp hpixel, hbit⟩
  · rintro ⟨r, c, hr, hc, hpixel, hbit⟩
    exact ⟨r, c, hr, hc, (hlit hr hc hbit).mpr hpixel, hbit⟩

end Sys2Proof.Machine
end

section
/-! PROOFS. What `Draw` past its bounds check leaves: the blit's grid and flag, one request, and nothing else. -/

namespace Sys2Proof.Machine

@[simp] theorem drawSprite_fb (x y : Reg) (n : Nibble) (s : State) :
    (drawSprite x y n s).fb = (blit s.fb (startColumn s x) (startRow s y) (spriteRows s n)).grid := rfl

theorem drawSprite_reg_flag (x y : Reg) (n : Nibble) (s : State) :
    (drawSprite x y n s).reg 15 =
      collisionFlag (blit s.fb (startColumn s x) (startRow s y) (spriteRows s n)).collision :=
  State.setReg_reg_self (s.setFb _) flagReg _

theorem collisionFlag_eq_one (b : Bool) : collisionFlag b = 1 ↔ b = true := by
  revert b; decide

theorem collisionFlag_eq_zero (b : Bool) : collisionFlag b = 0 ↔ b = false := by
  revert b; decide

theorem drawSprite_flag_eq_one (x y : Reg) (n : Nibble) (s : State) :
    (drawSprite x y n s).reg 15 = 1 ↔ Collides s.fb (spriteRows s n) (startColumn s x) (startRow s y) := by
  rw [drawSprite_reg_flag, collisionFlag_eq_one, blit_collision]

theorem drawSprite_flag_eq_zero (x y : Reg) (n : Nibble) (s : State) :
    (drawSprite x y n s).reg 15 = 0 ↔ ¬ Collides s.fb (spriteRows s n) (startColumn s x) (startRow s y) := by
  rw [drawSprite_reg_flag, collisionFlag_eq_zero, ← blit_collision, Bool.not_eq_true]

theorem OnlyChanges.drawSprite (x y : Reg) (n : Nibble) (s : State) :
    OnlyChanges [15] [.fb, .history, .inputs, .halt] s (drawSprite x y n s) :=
  ((OnlyChanges.setFb s _).trans (.setReg _ flagReg _)).trans (.render _ _)

theorem drawSprite_of_exec {x y : Reg} {n : Nibble} {s t : State} (hin : s.index.toNat + n.toNat ≤ 4096)
    (h : exec (.draw x y n) s = .next t) : drawSprite x y n s = t :=
  Host.Outcome.next.inj ((exec_draw_inside hin x y).symm.trans h)

/-- Away from the flag register a `Draw` leaves its own coordinates where they were (R208 (b)). -/
theorem drawSprite_startColumn {x : Reg} (y : Reg) (n : Nibble) (s : State) (hx : x ≠ 15) :
    startColumn (drawSprite x y n s) x = startColumn s x := by
  rw [startColumn, startColumn, (OnlyChanges.drawSprite x y n s).1 x (List.mem_singleton.not.mpr hx)]

theorem drawSprite_startRow (x : Reg) {y : Reg} (n : Nibble) (s : State) (hy : y ≠ 15) :
    startRow (drawSprite x y n s) y = startRow s y := by
  rw [startRow, startRow, (OnlyChanges.drawSprite x y n s).1 y (List.mem_singleton.not.mpr hy)]

@[simp] theorem drawSprite_index (x y : Reg) (n : Nibble) (s : State) :
    (drawSprite x y n s).index = s.index := rfl

@[simp] theorem drawSprite_spriteRows (x y : Reg) (n m : Nibble) (s : State) :
    spriteRows (drawSprite x y n s) m = spriteRows s m := rfl

end Sys2Proof.Machine
end

section
/-! PROOFS. The statements of 46_draw.md, settled. -/

namespace Sys2Proof.Proofs

open Sys2Proof.Machine

/-- Settles O36: the grid and the collision bit, each by induction on the rows. -/
theorem blitXorsClipsAndReportsCollision : Obligations.BlitXorsClipsAndReportsCollision := fun fb rows sx sy =>
  ⟨fun _ _ hr hc => blit_pixel fb rows sx sy hr hc, blit_collision fb rows sx sy⟩

/-- Settles O37: the blit of the bytes at I at the masked coordinates; the surface's answer decides the latch alone. -/
theorem drawCompositesCollidesAndPaints : Obligations.DrawCompositesCollidesAndPaints := by
  intro x y n s hin
  simp only [← spriteRows_eq, ← startColumn_eq, ← startRow_eq]
  refine ⟨_, exec_draw_inside hin x y, fun r c hr hc => blit_pixel _ _ _ _ hr hc,
    (drawSprite_flag_eq_one x y n s).mpr, (drawSprite_flag_eq_zero x y n s).mpr, rfl, rfl, ?_, .drawSprite x y n s⟩
  rw [drawSprite_halt]
  simp only [beq_iff_eq]

/-- Settles O55: the second Draw blits the same sprite at the same place into the grid the first one left. -/
theorem drawTwiceRestoresTheScreen : Obligations.DrawTwiceRestoresTheScreen := by
  intro x y n s t u hx hy hin hst htu
  obtain rfl := drawSprite_of_exec hin hst
  obtain rfl := drawSprite_of_exec (s := drawSprite x y n s) hin htu
  simp only [drawSprite_flag_eq_one, drawSprite_flag_eq_zero, drawSprite_fb, drawSprite_startColumn y n s hx,
    drawSprite_startRow x n s hy, drawSprite_spriteRows]
  exact ⟨blit_blit_grid .., (em _).symm, collides_blit ..⟩

/-- Settles O56: a blank grid has no lit pixel to turn off, and false XOR a bit is the bit. -/
theorem blankScreenNeverCollides : Obligations.BlankScreenNeverCollides := by
  intro x y n s t hblank hin h
  obtain rfl := drawSprite_of_exec hin h
  refine ⟨(drawSprite_flag_eq_zero x y n s).mpr ?_, fun r c hr hc => ?_⟩
  · rw [hblank]
    exact not_collides_blank _ _ _
  · rw [drawSprite_fb, blit_pixel _ _ _ _ hr hc, hblank, Framebuffer.pixel_blank, Bool.false_bne]

/-- Settles O38. -/
theorem drawPastMemoryFaultsBeforeAnyWrite : Obligations.DrawPastMemoryFaultsBeforeAnyWrite := fun x y _ s hout =>
  ⟨_, exec_draw_outside hout x y, rfl, .setHalt s _⟩

end Sys2Proof.Proofs
end

section
/-! PROOFS. What the tags without execution semantics answer (R220). -/

namespace Sys2Proof.Machine

theorem exec_of_unimplemented {i : Instr} (hi : isUnimplemented i = true) (s : State) :
    exec i s = .next (s.raise (.unimplementedOpcode i (encode i))) := by
  cases i with
  | skipKeyPressed | skipKeyNotPressed | getDelay | waitKey | setDelay | setSound | addIndex | setIndexFont
  | storeBcd | dumpRegs | loadRegs | unknown => rfl
  | _ => exact absurd hi Bool.false_ne_true

end Sys2Proof.Machine
end

section
/-! PROOFS. The statement of 47_unimplemented.md, settled. -/

namespace Sys2Proof.Proofs

open Sys2Proof.Machine

/-- Settles O39: every listed tag is one without semantics, and raising its fault writes the latch alone. -/
theorem unimplementedTagsLatchTheirFault : Obligations.UnimplementedTagsLatchTheirFault := by
  intro x w s i hi
  have hun : isUnimplemented i = true := List.all_eq_true.mp rfl i hi
  exact ⟨_, exec_of_unimplemented hun s, rfl, .setHalt s _⟩

end Sys2Proof.Proofs
end

section
/-! PROOFS. The latch after one instruction and the cause of what it holds (R240), and the two things `load` and its
transaction can answer (R286 to R288). -/

namespace Sys2Proof.Machine

/-! ## The latch -/

theorem significantBits_of_unimplemented {i : Instr} (hi : isUnimplemented i = true) :
    significantBits i.tag = BitVec.allOnes 16 := by
  cases i with
  | skipKeyPressed | skipKeyNotPressed | getDelay | waitKey | setDelay | setSound | addIndex | setIndexFont
  | storeBcd | dumpRegs | loadRegs | unknown => rfl
  | _ => exact absurd hi Bool.false_ne_true

/-- The encodings without semantics have no ignored bit, so the word a fault records is the fetched one (R220). -/
theorem encode_decodeWord_of_unimplemented {w : Word} (h : isUnimplemented (decodeWord w) = true) :
    encode (decodeWord w) = w := by
  rw [(decodeWord_reads w).encode_eq, significantBits_of_unimplemented h, BitVec.and_allOnes]

theorem tag_mem_of_unimplemented {i : Instr} (hi : isUnimplemented i = true) :
    i.tag ∈ [Tag.skipKeyPressed, .skipKeyNotPressed, .getDelay, .waitKey, .setDelay, .setSound, .addIndex,
      .setIndexFont, .storeBcd, .dumpRegs, .loadRegs, .unknown] := by
  cases i with
  | skipKeyPressed | skipKeyNotPressed | getDelay | waitKey | setDelay | setSound | addIndex | setIndexFont
  | storeBcd | dumpRegs | loadRegs | unknown => simp [Instr.tag]
  | _ => exact absurd hi Bool.false_ne_true

theorem State.pc_of_fetched_none {s : State} (h : s.fetched = none) : 4095 ≤ s.pc.toNat := by
  by_contra hpc
  rw [State.fetched, State.fetch_inside (by omega)] at h
  exact Option.some_ne_none _ h

theorem State.render_halt_cases (s : State) (q : RenderRequest) :
    (s.render q).halt = s.halt ∨ (s.inputs.nextAnswer = .fail ∧ (s.render q).halt = some (.renderFailure q)) := by
  cases h : s.inputs.nextAnswer with
  | ok => exact .inl (by rw [State.render_ok q h, State.send_halt])
  | fail => exact .inr ⟨rfl, by rw [State.render_fail q h, State.raise_halt]⟩

/-- What one instruction can do to the latch: each record stands with its cause (R241 to R246). -/
theorem Effect.halt_cases {s t : State} {i : Instr} (h : Effect s i t) :
    t.halt = s.halt ∨
    (i = .ret ∧ s.stack = [] ∧ t.halt = some .stackUnderflow) ∨
    (isUnimplemented i = true ∧ t.halt = some (.unimplementedOpcode i (encode i))) ∨
    (∃ x y n, i = .draw x y n ∧ 4096 < s.index.toNat + n.toNat ∧
      t.halt = some (.outOfBounds (.sprite s.index n))) ∨
    (s.inputs.nextAnswer = .fail ∧ ∃ q, t.halt = some (.renderFailure q) ∧
      ((i = .clear ∧ q = .clearOutput) ∨ ∃ x y n, i = .draw x y n ∧ q = .paint t.fb)) := by
  cases h with
  | underflow hs => exact .inr (.inl ⟨rfl, hs, rfl⟩)
  | unimplemented hi => exact .inr (.inr (.inl ⟨hi, rfl⟩))
  | drawPastMemory x y n hout => exact .inr (.inr (.inr (.inl ⟨x, y, n, rfl, hout, rfl⟩)))
  | clear =>
    obtain hkept | ⟨hfail, hlatch⟩ := (s.setFb Framebuffer.blank).render_halt_cases .clearOutput
    · exact .inl hkept
    · exact .inr (.inr (.inr (.inr ⟨hfail, _, hlatch, .inl ⟨rfl, rfl⟩⟩)))
  | draw x y n =>
    obtain hkept | ⟨hfail, hlatch⟩ := State.render_halt_cases _ (.paint (drawSprite x y n s).fb)
    · exact .inl hkept
    · exact .inr (.inr (.inr (.inr ⟨hfail, _, hlatch, .inr ⟨x, y, n, rfl, rfl⟩⟩)))
  | registers | jump | call | ret | setIndex | rand => exact .inl rfl

/-! ## The image -/

theorem OnlyChanges.setMem (s : State) (m : Memory) : OnlyChanges [] [.mem] s { s with mem := m } :=
  ⟨fun _ _ => rfl, fun p hp => by cases p <;> simp [Part.Same] at hp ⊢⟩

theorem State.load_overlong (s : State) {bytes : List Byte} (h : 3584 < bytes.length) :
    s.load bytes = s.raise (.outOfBounds (.load bytes.length)) :=
  if_pos h

/-- An image that fits is written whole: 0x200 + 3584 is the end of memory. -/
theorem State.load_fitting (s : State) {bytes : List Byte} (h : bytes.length ≤ 3584) :
    ∃ m, s.mem.writeBytes 0x200 bytes = some m ∧ s.load bytes = { s with mem := m } := by
  obtain ⟨m, hm⟩ := Memory.writeBytes_isSome (m := s.mem) (a := 0x200) (bs := bytes) (by omega)
  refine ⟨m, hm, ?_⟩
  rw [State.load, if_neg (Nat.not_lt.mpr h), hm]

/-! ## The load transaction -/

theorem transact_load_late {p : Session} (h : p.phase ≠ .fresh) (bytes : List Byte) :
    transact (.load bytes) p = .refused .loadOutOfPhase := by
  obtain ⟨s, phase⟩ := p
  cases phase with
  | fresh => exact absurd rfl h
  | loaded | ticked => rfl

theorem transact_load_fresh (s : State) (bytes : List Byte) :
    transact (.load bytes) ⟨s, .fresh⟩ = .next ⟨s.load bytes, .loaded⟩ := rfl

end Sys2Proof.Machine
end

section
/-! PROOFS. The statements of 60_exceptions.md and 70_reset_and_hazards.md, and the source's worked words, settled. -/

namespace Sys2Proof.Proofs

open Sys2Proof.Machine

/-- Settles O18: a running core's latch is set by the fetch or by one of the cases of `Effect.halt_cases`. -/
theorem faultIsLatchedOnlyForItsCause : Obligations.FaultIsLatchedOnlyForItsCause := by
  intro s t f hh h hf
  obtain ⟨hne, -⟩ | ⟨-, hnone, rfl⟩ | ⟨i, -, hi, -, he⟩ := step_inv h
  · exact absurd hh hne
  · obtain rfl := Option.some.inj hf
    exact ⟨rfl, State.pc_of_fetched_none hnone⟩
  · obtain hkept | ⟨rfl, hs, hlatch⟩ | ⟨hun, hlatch⟩ | ⟨x, y, n, rfl, hout, hlatch⟩ | ⟨hfail, q, hlatch, hq⟩ :=
      he.halt_cases
    · exact absurd (hf.symm.trans (hkept.trans hh)) (Option.some_ne_none f)
    all_goals obtain rfl := Option.some.inj (hf.symm.trans hlatch)
    · exact ⟨hi, hs⟩
    · obtain ⟨w, hw, rfl⟩ := Option.map_eq_some_iff.mp hi
      have hword := encode_decodeWord_of_unimplemented hun
      exact ⟨hw.trans (congrArg some hword.symm), congrArg decodeWord hword.symm, tag_mem_of_unimplemented hun⟩
    · exact ⟨rfl, hout, x, y, hi⟩
    · obtain ⟨rfl, hq⟩ | ⟨x, y, n, rfl, hq⟩ := hq
      · exact ⟨hfail, .inl ⟨hi, hq⟩⟩
      · exact ⟨hfail, .inr ⟨x, y, n, hi, hq⟩⟩

/-- Settles O51: the loop of R286 read address by address. -/
theorem loadCopiesImageVerbatim : Obligations.LoadCopiesImageVerbatim := by
  intro s bytes hwf hlen
  obtain ⟨m, hm, hload⟩ := s.load_fitting hlen
  have hpeek := Memory.peek_writeBytes hwf hm
  rw [hload]
  refine ⟨fun k hk => ?_, fun a ha => ?_, Memory.wf_writeBytes hwf hm, .setMem s m⟩
  · rw [hpeek, if_pos (by omega), Nat.add_sub_cancel_left]
  · rw [hpeek, if_neg (by omega)]

/-- Settles O53: a tick always answers, by the totality of `step`, and a load is refused by its phase alone. -/
theorem transactionsRefuseOnlyALateLoad : Obligations.TransactionsRefuseOnlyALateLoad := by
  refine ⟨fun x p => ?_, fun p bytes hp => transact_load_late hp bytes, transact_load_fresh, fun _ => rfl⟩
  cases x with
  | reset => exact .inl ⟨_, rfl⟩
  | load bytes =>
    by_cases hp : p.phase = .fresh
    · obtain ⟨s, phase⟩ := p
      obtain rfl : phase = .fresh := hp
      exact .inl ⟨_, transact_load_fresh s bytes⟩
    · exact .inr ⟨transact_load_late hp bytes, hp, bytes, rfl⟩
  | tick rand answer =>
    obtain ⟨u, -, -, htransact⟩ := tickIsOneStepOnItsTwoInputs rand answer p.core
    exact .inl ⟨_, htransact p.phase⟩

/-- Settles O52. -/
theorem overlongLoadFaultsWithoutWriting : Obligations.OverlongLoadFaultsWithoutWriting := by
  intro s bytes hlen
  rw [s.load_overlong hlen]
  exact ⟨rfl, .setHalt s _⟩

/-- Settles O5: six words are the encoder's own, and 0x5001 has the low nibble that `SkipEqReg` ignores. -/
theorem sourceExampleWordsDecode : Obligations.SourceExampleWordsDecode :=
  ⟨decodeWord_encode (i := .clear) rfl, decodeWord_encode (i := .absJump 0x234) rfl,
    decodeWord_encode (i := .setVal 0xA 0x3C) rfl, decodeWord_encode (i := .add 0xA 0xB) rfl,
    decodeWord_encode (i := .draw 0 1 2) rfl, decodeWord_regReg_five 0 0 1, decodeWord_encode (i := .getDelay 0) rfl⟩

end Sys2Proof.Proofs
end
